-- ==== Sys2Proof/Word.lean ====
section
/-! DEFINITION. The words of the block: every register is 8 bits unless a rule says otherwise (R9). -/

namespace Sys2Proof

/-- An 8-bit register or operand (R9, R56). -/
abbrev Byte := BitVec 8

/-- A 4-bit field: IER bits 3:0, the MSR status and delta nibbles, the CTRL value (R11, R26, R32). -/
abbrev Nibble := BitVec 4

/-- A host address or the value of a host write: the `uint32_t` of the entry points (R50). -/
abbrev Word := BitVec 32

/-- An effective I/O port number, 11 bits (R50). -/
abbrev IoPort := BitVec 11

/-- A register offset within one UART, 3 bits (R51). -/
abbrev Offset := BitVec 3

end Sys2Proof
end

