-- ==== Sys2Proof/Config.lean ====
section
/-! DEFINITION. The parameters of R8 (00_scope.md). A row with a value is a definition; an OPEN row is an opaque
constant with no body, so that whatever is proved holds for every value (log entries 3, 4 and 7). -/

namespace Sys2Proof

/-- `NUM_PORTS` (R2, R8). -/
def Config.numPorts : Nat := 2

/-- `RX_FIFO_DEPTH` (R8, R22). -/
def Config.rxFifoDepth : Nat := 16

/-- `TX_FIFO_DEPTH` (R8). No operation reads it: the transmit buffer is always empty (R24). -/
def Config.txFifoDepth : Nat := 16

/-- `PORT_SHIFT` (R8, R50). -/
def Config.portShift : Nat := 2

/-- `PORT_MASK` (R8, R50). -/
def Config.portMask : Word := 0x7FF#32

/-- `COM1_BASE` (R8, R51). PRESUMED: the PC convention the spec takes from general knowledge, log entry 5. -/
def Config.com1Base : IoPort := 0x3F8#11

/-- `COM2_BASE` (R8, R51). PRESUMED: the PC convention the spec takes from general knowledge, log entry 5. -/
def Config.com2Base : IoPort := 0x2F8#11

/-- `LOOPBACK_DELTAS`, decided true (R8, R133). -/
def Config.loopbackDeltas : Bool := true

/-- `SERIAL_FIQ_BIT`, OPEN (R8, R155): log entry 4. -/
opaque Config.serialFiqBit : Nat

/-- `RESET_DLL`, OPEN (R8, R170): log entry 3. -/
opaque Config.resetDll : Byte

/-- `RESET_DLM`, OPEN (R8, R170): log entry 3. -/
opaque Config.resetDlm : Byte

/-- `RESET_SCR`, OPEN (R8, R170): log entry 3. -/
opaque Config.resetScr : Byte

/-- `RESET_RBR`, OPEN (R8, R170): log entry 3. -/
opaque Config.resetRbr : Byte

/-- `RESET_MSR_STATUS`, OPEN (R8, R170): log entry 3. -/
opaque Config.resetMsrStatus : Nibble

/-- Whether an I/O port outside both UART ranges belongs to another sub-engine of the dispatcher. The spec
leaves those ranges out (R5, R54): a free value, log entry 7. -/
opaque Config.otherEngine : IoPort → Bool

/-- What another sub-engine answers to a read of its port; the first argument is the model's counter of
free values, so that no two reads are forced to agree (R5, R54): a free value, log entry 7. -/
opaque Config.otherRead : Nat → IoPort → Byte

end Sys2Proof
end

