-- ==== Sys2Proof/Syntax.lean ====
section
/-! DEFINITION. The syntax of the block: its two ports, its 23 operations (one constructor per row of
spec/opcode_table.json), the operation triple that encodes one (R70), the calls by which the agents make one
(R53, R76), the device events (R60) and the assembly lines (R80). -/

namespace Sys2Proof

/-- The two instances of the block (R2, R163). -/
inductive PortId where
  /-- port 0 -/
  | com1
  /-- port 1 -/
  | com2
deriving DecidableEq, Repr, Inhabited

/-- The operations of the block (R6, R73, R74). Reads carry the port, writes and events the port and the
8-bit operand (R76), EV_RESET nothing: it acts on both ports (R170). Operands are typed, so that every term
is a legal operation; WellFormed.lean checks the forms that can be ill-formed. -/
inductive Instr where
  /-- RD_RBR (R100) -/
  | rdRbr (p : PortId)
  /-- WR_THR (R101) -/
  | wrThr (p : PortId) (b : Byte)
  /-- RD_DLL (R102) -/
  | rdDll (p : PortId)
  /-- WR_DLL (R103) -/
  | wrDll (p : PortId) (b : Byte)
  /-- RD_IER (R104) -/
  | rdIer (p : PortId)
  /-- WR_IER (R105) -/
  | wrIer (p : PortId) (b : Byte)
  /-- RD_DLM (R106) -/
  | rdDlm (p : PortId)
  /-- WR_DLM (R107) -/
  | wrDlm (p : PortId) (b : Byte)
  /-- RD_IIR (R111) -/
  | rdIir (p : PortId)
  /-- WR_FCR (R112) -/
  | wrFcr (p : PortId) (b : Byte)
  /-- RD_LCR (R120) -/
  | rdLcr (p : PortId)
  /-- WR_LCR (R121) -/
  | wrLcr (p : PortId) (b : Byte)
  /-- RD_LSR (R122) -/
  | rdLsr (p : PortId)
  /-- WR_LSR (R123) -/
  | wrLsr (p : PortId) (b : Byte)
  /-- RD_SCR (R124) -/
  | rdScr (p : PortId)
  /-- WR_SCR (R125) -/
  | wrScr (p : PortId) (b : Byte)
  /-- RD_MCR (R132) -/
  | rdMcr (p : PortId)
  /-- WR_MCR (R133) -/
  | wrMcr (p : PortId) (b : Byte)
  /-- RD_MSR (R134) -/
  | rdMsr (p : PortId)
  /-- WR_MSR (R135) -/
  | wrMsr (p : PortId) (b : Byte)
  /-- EV_RX (R140) -/
  | evRx (p : PortId) (b : Byte)
  /-- EV_MSTAT (R141) -/
  | evMstat (p : PortId) (st : Byte)
  /-- EV_RESET (R170) -/
  | evReset
deriving DecidableEq, Repr

/-- An operation triple `(key, p, data)` (R70), the machine-level encoding of one operation (R80). -/
structure Operation where
  /-- the 7-bit operation key KIND:W:DLAB:OFF (R71) -/
  key : BitVec 7
  /-- the port, ignored for reset -/
  p : PortId
  /-- the operand of a write or an event, absent (zero) otherwise (R76) -/
  data : Byte
deriving DecidableEq, Repr

/-- One call into the block by one of its agents (R7, R53, R76). -/
inductive Call where
  /-- the host's `superio_read(addr)` -/
  | superioRead (addr : Word)
  /-- the host's `superio_write(addr, val)` -/
  | superioWrite (addr val : Word)
  /-- the device's `serial_bus_device_write_data(port, byte)`: a received byte -/
  | deviceWriteData (p : PortId) (byte : Byte)
  /-- the device's `device_status(port, status)`: a modem-status change -/
  | deviceStatus (p : PortId) (status : Byte)
  /-- `superio_reset()` -/
  | superioReset
deriving DecidableEq, Repr

/-- What a device may do inside `emit TX` and `emit CTRL`: an EV_RX or an EV_MSTAT, to either port (R60). -/
inductive DeviceEvent where
  /-- a received byte -/
  | rx (p : PortId) (b : Byte)
  /-- a modem-status change -/
  | mstat (p : PortId) (st : Byte)
deriving DecidableEq, Repr

/-- The operation a nested device event is (R60: a sequence of EV_RX and EV_MSTAT operations). -/
def DeviceEvent.instr : DeviceEvent → Instr
  | .rx p b => .evRx p b
  | .mstat p st => .evMstat p st

/-- The register names of the assembly syntax (R80). -/
inductive RegName where
  | rbr | thr | dll | ier | dlm | iir | fcr | lcr | mcr | lsr | msr | scr
deriving DecidableEq, Repr

/-- A register operand of an assembly line: a name, or a numeric offset (R80). -/
inductive RegRef where
  | named (r : RegName)
  | offset (n : Nat)
deriving DecidableEq, Repr

/-- One line of an operation list (R80). -/
inductive Line where
  /-- `RD <p>, <reg>` -/
  | rd (p : PortId) (r : RegRef)
  /-- `WR <p>, <reg>, <byte>` -/
  | wr (p : PortId) (r : RegRef) (b : Byte)
  /-- `RX <p>, <byte>` -/
  | rx (p : PortId) (b : Byte)
  /-- `MS <p>, <byte>` -/
  | ms (p : PortId) (b : Byte)
  /-- `RESET` -/
  | reset
deriving DecidableEq, Repr

/-- The port an operation names: every one but EV_RESET names one (R10). -/
def Instr.port? : Instr → Option PortId
  | .rdRbr p | .rdDll p | .rdIer p | .rdDlm p | .rdIir p | .rdLcr p | .rdLsr p | .rdScr p | .rdMcr p | .rdMsr p => some p
  | .wrThr p _ | .wrDll p _ | .wrIer p _ | .wrDlm p _ | .wrFcr p _ | .wrLcr p _ | .wrLsr p _ | .wrScr p _ => some p
  | .wrMcr p _ | .wrMsr p _ | .evRx p _ | .evMstat p _ => some p
  | .evReset => none

end Sys2Proof
end

