-- ==== Sys2Proof/WellFormed.lean ====
section
/-! DEFINITION. Well-formedness of what can be ill-formed. An `Instr` is legal by its types (a port is one of two, an operand is a
byte); what needs a check is an operation key (R71, R77), an operation against the port's DLAB bit (R72), and an
assembly line (R80). -/

namespace Sys2Proof

/-- The KIND field of a key, bits 6:5 (R71). -/
def Operation.kind (o : Operation) : BitVec 2 := o.key.extractLsb' 5 2

/-- A key is legal unless KIND is not 0 and bits 4:0 are not 0: those keys are reserved (R77). -/
def Operation.wellFormed (o : Operation) : Bool := o.kind == 0#2 || o.key.extractLsb' 0 5 == 0#5

/-- The DLAB value an operation needs: offsets 0 and 1 are gated by it, every other operation is not (R72, R73). -/
def Instr.dlabNeeded : Instr → Option Bool
  | .rdRbr _ => some false
  | .wrThr _ _ => some false
  | .rdIer _ => some false
  | .wrIer _ _ => some false
  | .rdDll _ => some true
  | .wrDll _ _ => some true
  | .rdDlm _ => some true
  | .wrDlm _ _ => some true
  | .rdIir _ => none
  | .wrFcr _ _ => none
  | .rdLcr _ => none
  | .wrLcr _ _ => none
  | .rdLsr _ => none
  | .wrLsr _ _ => none
  | .rdScr _ => none
  | .wrScr _ _ => none
  | .rdMcr _ => none
  | .wrMcr _ _ => none
  | .rdMsr _ => none
  | .wrMsr _ _ => none
  | .evRx _ _ => none
  | .evMstat _ _ => none
  | .evReset => none

/-- Whether an operation can arise on a port whose LCR[7] is `dlab` (R72; R101 "With DLAB = 1 this key cannot
arise"). -/
def Instr.arisesUnder (dlab : Bool) (i : Instr) : Bool :=
  match i.dlabNeeded with
  | none => true
  | some d => d == dlab

/-- The register names a read line may use (R80). -/
def RegName.readable : RegName → Bool
  | .thr => false
  | .fcr => false
  | _ => true

/-- The register names a write line may use (R80). -/
def RegName.writable : RegName → Bool
  | .rbr => false
  | .iir => false
  | _ => true

/-- A line is well-formed when its register may be used in its direction and a numeric offset is 0 to 7 (R80). -/
def Line.wellFormed : Line → Bool
  | .rd _ (.named r) => r.readable
  | .rd _ (.offset n) => decide (n < 8)
  | .wr _ (.named r) _ => r.writable
  | .wr _ (.offset n) _ => decide (n < 8)
  | .rx _ _ => true
  | .ms _ _ => true
  | .reset => true

end Sys2Proof
end

