-- ==== Sys2Proof/Decode.lean ====
section
/-! DEFINITION. The decoder (R70 to R79) and, after it, the encoder. The decoder is the opcode table itself: a list of rows, each
a mask, a pattern and the operation it stands for. -/

namespace Sys2Proof

/-- Why a decoder refuses. -/
inductive DecodeError where
  /-- KIND is not 0 and bits 4:0 are not 0 (R77 "reserved operation key"). -/
  | reservedKey
  /-- The byte that holds the key has bit 7 set: a key is 7 bits (R71; byte layout: log entry 9). -/
  | keyNotSevenBits
  /-- The byte that holds the port is neither 0 nor 1 (R70). -/
  | noSuchPort
  /-- An operation is laid out in three bytes, key, port and data (log entry 9). -/
  | notThreeBytes
deriving DecidableEq, Repr

/-- A row of spec/opcode_table.json: a key is the row's when it agrees with `pat` in the bits of `mask`. -/
structure OpRow where
  mask : BitVec 7
  pat : BitVec 7
  make : PortId → Byte → Instr

/-- The key is the row's. -/
def OpRow.hits (r : OpRow) (key : BitVec 7) : Bool := key &&& r.mask == r.pat

/-- The host-access rows of offsets 0 and 1, gated by DLAB (R73). -/
def gatedRows : List OpRow :=
  [ ⟨0x7F#7, 0x00#7, fun p _ => .rdRbr p⟩,
    ⟨0x7F#7, 0x10#7, fun p b => .wrThr p b⟩,
    ⟨0x7F#7, 0x08#7, fun p _ => .rdDll p⟩,
    ⟨0x7F#7, 0x18#7, fun p b => .wrDll p b⟩,
    ⟨0x7F#7, 0x01#7, fun p _ => .rdIer p⟩,
    ⟨0x7F#7, 0x11#7, fun p b => .wrIer p b⟩,
    ⟨0x7F#7, 0x09#7, fun p _ => .rdDlm p⟩,
    ⟨0x7F#7, 0x19#7, fun p b => .wrDlm p b⟩ ]

/-- The host-access rows of offsets 2 to 7, where DLAB selects nothing (R72, R73). -/
def ungatedRows : List OpRow :=
  [ ⟨0x77#7, 0x02#7, fun p _ => .rdIir p⟩,
    ⟨0x77#7, 0x12#7, fun p b => .wrFcr p b⟩,
    ⟨0x77#7, 0x03#7, fun p _ => .rdLcr p⟩,
    ⟨0x77#7, 0x13#7, fun p b => .wrLcr p b⟩,
    ⟨0x77#7, 0x05#7, fun p _ => .rdLsr p⟩,
    ⟨0x77#7, 0x15#7, fun p b => .wrLsr p b⟩,
    ⟨0x77#7, 0x07#7, fun p _ => .rdScr p⟩,
    ⟨0x77#7, 0x17#7, fun p b => .wrScr p b⟩,
    ⟨0x77#7, 0x04#7, fun p _ => .rdMcr p⟩,
    ⟨0x77#7, 0x14#7, fun p b => .wrMcr p b⟩,
    ⟨0x77#7, 0x06#7, fun p _ => .rdMsr p⟩,
    ⟨0x77#7, 0x16#7, fun p b => .wrMsr p b⟩ ]

/-- The event rows (R74). EV_RESET ignores the port (R70). -/
def eventRows : List OpRow :=
  [ ⟨0x7F#7, 0x20#7, fun p b => .evRx p b⟩,
    ⟨0x7F#7, 0x40#7, fun p b => .evMstat p b⟩,
    ⟨0x7F#7, 0x60#7, fun _ _ => .evReset⟩ ]

/-- spec/opcode_table.json, in its order. -/
def opRows : List OpRow := gatedRows ++ ungatedRows ++ eventRows

/-- Decode an operation triple. The port of EV_RESET and the data of a read are ignored (R70, R76; log entry 10). -/
def decodeOp (o : Operation) : Except DecodeError Instr :=
  match opRows.find? (fun r => r.hits o.key) with
  | some r => .ok (r.make o.p o.data)
  | none => .error .reservedKey

/-- Read a port number (R2, R70: p in 0, 1). -/
def portOfByte (b : Byte) : Option PortId :=
  if b == 0#8 then some .com1 else if b == 1#8 then some .com2 else none

/-- Read the three bytes of an operation triple: key, port, data (log entry 9). -/
def operationOfBytes : List Byte → Except DecodeError Operation
  | [k, p, d] =>
    if k[7] then .error .keyNotSevenBits
    else
      match portOfByte p with
      | some q => .ok ⟨k.setWidth 7, q, d⟩
      | none => .error .noSuchPort
  | _ => .error .notThreeBytes

/-- The decoder on bytes: total, rejecting by name. -/
def decodeBytes (bs : List Byte) : Except DecodeError Instr :=
  match operationOfBytes bs with
  | .ok o => decodeOp o
  | .error e => .error e

/-- The three bytes of an operation whose bits are the low `nbits` bits of `w`, every other bit zero. -/
def tableBytes (nbits w : Nat) : List Byte :=
  let v := w % 2 ^ nbits
  [BitVec.ofNat 8 v, BitVec.ofNat 8 (v / 2 ^ 8), BitVec.ofNat 8 (v / 2 ^ 16)]

/-- The operation that the decoder reads from the table's bits `w`. -/
def decodeTableWord (nbits w : Nat) : Option Instr :=
  match decodeBytes (tableBytes nbits w) with
  | .ok i => some i
  | .error _ => none

/-- The key KIND:W:DLAB:OFF of a host access (R71). -/
def hostKey (w dlab : Bool) (off : Offset) : BitVec 7 :=
  0#2 ++ BitVec.ofBool w ++ BitVec.ofBool dlab ++ off

/-- The key of an event, whose bits 4:0 are zero (R71, R74). -/
def eventKey (kind : BitVec 2) : BitVec 7 := kind ++ 0#5

/-- Encode an operation as its triple (R71, R73, R74, R76). `dlab` is the sampled bit, which fills bit 3 of the
keys of offsets 2 to 7; the keys of offsets 0 and 1 hold the value the operation needs. -/
def encodeOp (dlab : Bool) : Instr → Operation
  | .rdRbr p => ⟨hostKey false false 0#3, p, 0#8⟩
  | .wrThr p b => ⟨hostKey true false 0#3, p, b⟩
  | .rdDll p => ⟨hostKey false true 0#3, p, 0#8⟩
  | .wrDll p b => ⟨hostKey true true 0#3, p, b⟩
  | .rdIer p => ⟨hostKey false false 1#3, p, 0#8⟩
  | .wrIer p b => ⟨hostKey true false 1#3, p, b⟩
  | .rdDlm p => ⟨hostKey false true 1#3, p, 0#8⟩
  | .wrDlm p b => ⟨hostKey true true 1#3, p, b⟩
  | .rdIir p => ⟨hostKey false dlab 2#3, p, 0#8⟩
  | .wrFcr p b => ⟨hostKey true dlab 2#3, p, b⟩
  | .rdLcr p => ⟨hostKey false dlab 3#3, p, 0#8⟩
  | .wrLcr p b => ⟨hostKey true dlab 3#3, p, b⟩
  | .rdLsr p => ⟨hostKey false dlab 5#3, p, 0#8⟩
  | .wrLsr p b => ⟨hostKey true dlab 5#3, p, b⟩
  | .rdScr p => ⟨hostKey false dlab 7#3, p, 0#8⟩
  | .wrScr p b => ⟨hostKey true dlab 7#3, p, b⟩
  | .rdMcr p => ⟨hostKey false dlab 4#3, p, 0#8⟩
  | .wrMcr p b => ⟨hostKey true dlab 4#3, p, b⟩
  | .rdMsr p => ⟨hostKey false dlab 6#3, p, 0#8⟩
  | .wrMsr p b => ⟨hostKey true dlab 6#3, p, b⟩
  | .evRx p b => ⟨eventKey 1#2, p, b⟩
  | .evMstat p st => ⟨eventKey 2#2, p, st⟩
  | .evReset => ⟨eventKey 3#2, .com1, 0#8⟩

/-- The byte of a port number (R2). -/
def byteOfPort : PortId → Byte
  | .com1 => 0#8
  | .com2 => 1#8

/-- The three bytes of an operation triple (log entry 9). -/
def bytesOfOperation (o : Operation) : List Byte := [o.key.setWidth 8, byteOfPort o.p, o.data]

/-- The bytes of an operation, with the sampled DLAB bit 0 where it selects nothing. -/
def encode (i : Instr) : List Byte := bytesOfOperation (encodeOp false i)

end Sys2Proof
end

