-- ==== Sys2Proof/Machine/State.lean ====
section
/-! DEFINITION. The state of the block (10_state.md): two port records, the serial bit it drives in the interrupt
controller, and the model's own fields that stand for the agents and the bus outside it. -/

namespace Sys2Proof.Machine

/-- The record `U[p]` of one UART: exactly the fields of R21. -/
structure Uart where
  /-- received bytes not yet read, oldest first (R22) -/
  rxq : List Byte
  /-- the byte most recently removed by an RBR read (R23) -/
  rbrLast : Byte
  /-- divisor latch low byte (R25) -/
  dll : Byte
  /-- divisor latch high byte (R25) -/
  dlm : Byte
  /-- IER bits 3:0: EDSSI, ELSI, ETBEI, ERBFI (R26) -/
  ier : Nibble
  /-- FCR bit 0, FIFO enable (R28) -/
  fcrFe : Bool
  /-- FCR bit 3, DMA mode select: stored, no effect (R28) -/
  fcrDma : Bool
  /-- FCR bits 7:6, receiver trigger level: stored, no effect (R28) -/
  fcrTrig : BitVec 2
  /-- line control register, bit 7 is DLAB (R29) -/
  lcr : Byte
  /-- MCR bits 4:0: LOOP, OUT2, OUT1, RTS, DTR (R30) -/
  mcr : BitVec 5
  /-- LSR bit 1, overrun error (R31) -/
  oe : Bool
  /-- LSR bit 2, parity error (R31) -/
  pe : Bool
  /-- LSR bit 3, framing error (R31) -/
  fe : Bool
  /-- LSR bit 4, break (R31) -/
  bi : Bool
  /-- MSR bits 7:4: DCD, RI, DSR, CTS from bit 3 down to bit 0 (R32) -/
  msrStatus : Nibble
  /-- MSR bits 3:0, the delta bits (R32) -/
  msrDelta : Nibble
  /-- scratch register (R33) -/
  scr : Byte
  /-- the THRE interrupt latch (R34) -/
  threPending : Bool
deriving DecidableEq, Repr

/-- What the block emits (R11, R155). -/
inductive Output where
  /-- `emit TX(p, b)`: byte b on port p's transmit path -/
  | tx (p : PortId) (b : Byte)
  /-- `emit CTRL(p, c)`: the modem-control value c to port p's bus -/
  | ctrl (p : PortId) (c : Nibble)
  /-- `IC.fiq_status[bit] <- level` followed by `IC.updateirqs()` (R155) -/
  | updateirqs (bit : Nat) (level : Bool)
deriving DecidableEq, Repr

/-- The whole machine. The first three fields are the spec's; the others are the model's own (INVENTORY.md,
log entries 1, 2, 7 and 8). -/
structure State where
  /-- `U[0]` (R20) -/
  com1 : Uart
  /-- `U[1]` (R20) -/
  com2 : Uart
  /-- the serial bit of the interrupt controller's FIQ status register (R36, R155) -/
  fiqSerial : Bool
  /-- the calls the agents make next, oldest first (R7, R61): log entry 1 -/
  calls : List Call
  /-- for each coming emit, the events the device delivers nested inside it (R60): log entry 2 -/
  reactions : List (List DeviceEvent)
  /-- what the latest call returned: a host read's 8 bits, nothing otherwise (R10, R53): log entry 8 -/
  result : Option Byte
  /-- what the block has emitted, oldest first (R11, R155): log entry 8 -/
  outputs : List Output
  /-- how many free values reads of other sub-engines' ports have taken: log entry 7 -/
  fresh : Nat
deriving DecidableEq, Repr

/-- The block raises no exception and has no error code (R150), so a step has no fault: the type is closed
and empty. -/
inductive Fault where
deriving DecidableEq, Repr

/-- Why a step is refused. -/
inductive Refusal where
  /-- Raised by an arm of exec whose instruction has no meaning yet; no arm of this model raises it. Safe. -/
  | notModelled (mnemonic : String)
  /-- Raised by the decoder on an operation triple it refuses (R77 "reserved operation key"). No agent can make
  one, so no step raises it. Safe. -/
  | undecodable (e : DecodeError)
deriving DecidableEq, Repr

/-- What an operation answers. -/
abbrev Result := Host.Outcome State Fault Refusal

/-- A port record after EV_RESET (R170). The OPEN parameters are opaque (log entry 3). -/
def Uart.reset : Uart where
  rxq := []
  rbrLast := Config.resetRbr
  dll := Config.resetDll
  dlm := Config.resetDlm
  ier := 0x0#4
  fcrFe := false
  fcrDma := false
  fcrTrig := 0#2
  lcr := 0x00#8
  mcr := 0x00#5
  oe := false
  pe := false
  fe := false
  bi := false
  msrStatus := Config.resetMsrStatus
  msrDelta := 0x0#4
  scr := Config.resetScr
  threPending := false

/-- The machine right after EV_RESET (R170, R171, R173), with no call pending and nothing emitted. -/
def State.reset : State where
  com1 := Uart.reset
  com2 := Uart.reset
  fiqSerial := false
  calls := []
  reactions := []
  result := none
  outputs := []
  fresh := 0

end Sys2Proof.Machine
end

