-- ==== Sys2Proof/Machine/Flags.lean ====
section
/-! DEFINITION. The views that are computed on demand and never stored (R13): DR, the receive capacity, LSR,
MSR, IIR and the interrupt output of one port. -/

namespace Sys2Proof.Machine

/-- `rx_cap(p)` (R22). -/
def rxCap (u : Uart) : Nat := if u.fcrFe then Config.rxFifoDepth else 1

/-- `DR(p)` (R22). -/
def dataReady (u : Uart) : Bool := decide (0 < u.rxq.length)

/-- A one-bit value shifted to bit `i` of a byte. -/
def bitAt (b : Bool) (i : Nat) : Byte := (BitVec.ofBool b).setWidth 8 <<< i

/-- `LSR(p)` (R31): THRE and TEMT are constant 1, bit 7 constant 0. -/
def lsr (u : Uart) : Byte :=
  bitAt false 7 ||| bitAt true 6 ||| bitAt true 5 ||| bitAt u.bi 4 ||| bitAt u.fe 3 ||| bitAt u.pe 2 ||| bitAt u.oe 1
    ||| bitAt (dataReady u) 0

/-- `MSR(p)` (R32): the status nibble above the delta nibble. -/
def msr (u : Uart) : Byte := u.msrStatus ++ u.msrDelta

/-- The line-status condition `oe | pe | fe | bi` (R110). -/
def lineError (u : Uart) : Bool := u.oe || u.pe || u.fe || u.bi

/-- The enabled RLS source holds (R110, R151). -/
def rlsHolds (u : Uart) : Bool := u.ier[2] && lineError u

/-- The enabled RDA source holds (R110, R151). -/
def rdaHolds (u : Uart) : Bool := u.ier[0] && dataReady u

/-- The enabled THRE source holds (R110, R151). -/
def threHolds (u : Uart) : Bool := u.ier[1] && u.threPending && (lsr u)[5]

/-- The enabled MODEM source holds (R110, R151). -/
def modemHolds (u : Uart) : Bool := u.ier[3] && u.msrDelta != 0#4

/-- The identification nibble of the priority encoder (R110). -/
def iirId (u : Uart) : Byte :=
  if rlsHolds u then 0x6#8
  else if rdaHolds u then 0x4#8
  else if threHolds u then 0x2#8
  else if modemHolds u then 0x0#8
  else 0x1#8

/-- `IIR(p)` (R110). -/
def iir (u : Uart) : Byte := (if u.fcrFe then 0xC0#8 else 0x00#8) ||| iirId u

/-- `int[p] = (IIR(p)[0] == 0)` (R154). -/
def intOut (u : Uart) : Bool := !(iir u)[0]

end Sys2Proof.Machine
end

