-- ==== Sys2Proof/Machine/Operands.lean ====
section
/-! DEFINITION. The operand forms: the fields a written byte is split into (R76, R105, R112, R133, R141), and
the loopback nibble (R131). -/

namespace Sys2Proof.Machine

/-- The byte of a host write, `val[7:0]` (R53). -/
def writeData (val : Word) : Byte := val.setWidth 8

/-- `b[3:0]`: the IER bits of a WR_IER (R105) and the CTRL value of a WR_MCR (R133). -/
def lowNibble (b : Byte) : Nibble := b.setWidth 4

/-- `s[7:4]`: the status nibble of an EV_MSTAT (R141). -/
def highNibble (b : Byte) : Nibble := b.extractLsb' 4 4

/-- `b[4:0]`: the MCR bits of a WR_MCR (R133). -/
def mcrBits (b : Byte) : BitVec 5 := b.setWidth 5

/-- `b[7:6]`: the trigger level of a WR_FCR (R112). -/
def fcrTrigBits (b : Byte) : BitVec 2 := b.extractLsb' 6 2

/-- DLAB of an LCR value, bit 7 (R29). -/
def dlabOf (lcr : Byte) : Bool := lcr[7]

/-- `Loop(m)`: DCD from OUT2, RI from OUT1, DSR from DTR, CTS from RTS (R131). -/
def loopNibble (m : Byte) : Nibble :=
  BitVec.ofBool (m[3]) ++ BitVec.ofBool (m[2]) ++ BitVec.ofBool (m[0]) ++ BitVec.ofBool (m[1])

end Sys2Proof.Machine
end

