-- ==== Sys2Proof/Machine/Ops.lean ====
section
/-! DEFINITION. The shared operations: reading and writing a port record, emitting, `IrqUpdate()`, the ends of an operation,
the receive path, `StatusUpdate`, the nested device events, and the reset of a port. The block raises no exception
(R150), so there is none to take and none to return from: `irqUpdate` is what signals an event to the outside. -/

namespace Sys2Proof

/-- The other of the two ports (R2). -/
def PortId.other : PortId → PortId
  | .com1 => .com2
  | .com2 => .com1

end Sys2Proof

namespace Sys2Proof.Machine

/-- `U[p]` (R10). -/
def State.uart (s : State) : PortId → Uart
  | .com1 => s.com1
  | .com2 => s.com2

/-- `U[p] <- u` (R10). -/
def State.setUart (s : State) (p : PortId) (u : Uart) : State :=
  match p with
  | .com1 => { s with com1 := u }
  | .com2 => { s with com2 := u }

/-- Change port p's record by `f`. -/
def State.update (s : State) (p : PortId) (f : Uart → Uart) : State := s.setUart p (f (s.uart p))

/-- `emit` (R11). -/
def State.emit (s : State) (o : Output) : State := { s with outputs := s.outputs ++ [o] }

/-- `fiq_serial`: int[0] or int[1] (R155). -/
def serialLevel (s : State) : Bool := intOut s.com1 || intOut s.com2

/-- `IrqUpdate()` (R155). -/
def irqUpdate (s : State) : State :=
  { s with
    fiqSerial := serialLevel s
    outputs := s.outputs ++ [.updateirqs Config.serialFiqBit (serialLevel s)] }

/-- The end of an operation that returns `r`: the interrupt re-evaluation, then the return (R155). -/
def finish (r : Option Byte) (s : State) : State := { irqUpdate s with result := r }

/-- The end of a host read that returns `v`. -/
def returnByte (v : Byte) (s : State) : Result := .next (finish (some v) s)

/-- The end of a host write, a device event or a reset: nothing is returned. -/
def returnNothing (s : State) : Result := .next (finish none s)

/-- The byte an RBR read returns (R100). -/
def rbrValue (u : Uart) : Byte :=
  match u.rxq with
  | v :: _ => v
  | [] => u.rbrLast

/-- What an RBR read does to the port (R100). -/
def popRx (u : Uart) : Uart :=
  match u.rxq with
  | v :: q => { u with rxq := q, rbrLast := v }
  | [] => u

/-- A received byte (R140): queued, lost with OE when the FIFO is full, or overwriting the holding register with OE. -/
def pushRx (b : Byte) (u : Uart) : Uart :=
  if u.rxq.length < rxCap u then { u with rxq := u.rxq ++ [b] }
  else if u.fcrFe then { u with oe := true }
  else { u with rxq := [b], oe := true }

/-- `StatusUpdate(p, n, deltas)` (R130). -/
def statusUpdate (n : Nibble) (deltas : Bool) (u : Uart) : Uart :=
  { u with
    msrDelta := if deltas then u.msrDelta ||| (u.msrStatus ^^^ n) else u.msrDelta
    msrStatus := n }

/-- What an LSR read clears (R122). -/
def clearErrors (u : Uart) : Uart := { u with oe := false, pe := false, fe := false, bi := false }

/-- EV_RX as the block runs it, on its own or nested (R140, R60). -/
def receiveByte (p : PortId) (b : Byte) (s : State) : State := irqUpdate (s.update p (pushRx b))

/-- EV_MSTAT as the block runs it, on its own or nested (R141, R60). -/
def modemStatus (p : PortId) (st : Byte) (s : State) : State :=
  irqUpdate (s.update p (statusUpdate (highNibble st) true))

/-- One nested device event, which ends with its own `IrqUpdate()` (R60). -/
def deviceEvent (s : State) : DeviceEvent → State
  | .rx p b => receiveByte p b s
  | .mstat p st => modemStatus p st s

/-- "(nested device events are applied here)" (R60): the device's reaction to this emit, in its order. The
reactions still to come stand in State (log entry 2); with none left the device does nothing. -/
def nestedEvents (s : State) : State :=
  match s.reactions with
  | [] => s
  | es :: later => es.foldl deviceEvent { s with reactions := later }

/-- Emit towards the serial bus, whose device may act inside the call (R11, R60). -/
def emitToBus (o : Output) (s : State) : State := nestedEvents (s.emit o)

/-- The reset of one port, field by field (R170). -/
def resetUart (u : Uart) : Uart :=
  { u with
    rxq := []
    rbrLast := Config.resetRbr
    dll := Config.resetDll
    dlm := Config.resetDlm
    ier := 0x0#4
    fcrFe := false
    fcrDma := false
    fcrTrig := 0#2
    lcr := 0x00#8
    mcr := 0x00#5
    oe := false
    pe := false
    fe := false
    bi := false
    msrStatus := Config.resetMsrStatus
    msrDelta := 0x0#4
    scr := Config.resetScr
    threPending := false }

end Sys2Proof.Machine
end

