-- ==== Sys2Proof/Machine/Dlab.lean ====
section
/-! DEFINITION. The DLAB-aliased registers, offsets 0 and 1 (40_dlab_registers.md). -/

namespace Sys2Proof.Machine

/-- RD_RBR (R100). -/
def execRdRbr (p : PortId) (s : State) : Result :=
  returnByte (rbrValue (s.uart p)) (s.update p popRx)

/-- WR_THR (R101): the byte goes out at once, the device may act, then the THRE latch is set. -/
def execWrThr (p : PortId) (b : Byte) (s : State) : Result :=
  returnNothing ((emitToBus (.tx p b) s).update p (fun u => { u with threPending := true }))

/-- RD_DLL (R102). -/
def execRdDll (p : PortId) (s : State) : Result := returnByte (s.uart p).dll s

/-- WR_DLL (R103). -/
def execWrDll (p : PortId) (b : Byte) (s : State) : Result :=
  returnNothing (s.update p (fun u => { u with dll := b }))

/-- RD_IER (R104): bits 7:4 read 0. -/
def execRdIer (p : PortId) (s : State) : Result := returnByte ((s.uart p).ier.setWidth 8) s

/-- What a WR_IER does to the port (R105): the THRE latch follows ETBEI when ETBEI changes. -/
def writeIer (b : Byte) (u : Uart) : Uart :=
  { u with
    ier := lowNibble b
    threPending :=
      if u.ier[1] != b[1] then b[1] && (lsr u)[5] else u.threPending }

/-- WR_IER (R105). -/
def execWrIer (p : PortId) (b : Byte) (s : State) : Result := returnNothing (s.update p (writeIer b))

/-- RD_DLM (R106). -/
def execRdDlm (p : PortId) (s : State) : Result := returnByte (s.uart p).dlm s

/-- WR_DLM (R107). -/
def execWrDlm (p : PortId) (b : Byte) (s : State) : Result :=
  returnNothing (s.update p (fun u => { u with dlm := b }))

end Sys2Proof.Machine
end

