-- ==== Sys2Proof/Machine/Events.lean ====
section
/-! DEFINITION. The events: a received byte, a modem-status change (44_device_events.md) and reset
(70_reset_and_hazards.md). -/

namespace Sys2Proof.Machine

/-- EV_RX (R140). -/
def execEvRx (p : PortId) (b : Byte) (s : State) : Result := .next { receiveByte p b s with result := none }

/-- EV_MSTAT (R141). -/
def execEvMstat (p : PortId) (st : Byte) (s : State) : Result := .next { modemStatus p st s with result := none }

/-- EV_RESET (R170): both ports, and neither a TX nor a CTRL (R172). -/
def execEvReset (s : State) : Result :=
  returnNothing ((s.update .com1 resetUart).update .com2 resetUart)

end Sys2Proof.Machine
end

