-- ==== Sys2Proof/Machine/IirFcr.lean ====
section
/-! DEFINITION. Offset 2 (41_iir_fcr.md): the IIR read and the FCR write. The encoder itself is `iir` of Flags.lean. -/

namespace Sys2Proof.Machine

/-- What an IIR read that returned `v` does to the port (R111): the THRE latch falls when THRE was reported. -/
def ackIir (v : Byte) (u : Uart) : Uart :=
  if lowNibble v == 0x2#4 then { u with threPending := false } else u

/-- RD_IIR (R111). -/
def execRdIir (p : PortId) (s : State) : Result :=
  returnByte (iir (s.uart p)) (s.update p (ackIir (iir (s.uart p))))

/-- What a WR_FCR does to the port (R112). Bit 2, the transmitter FIFO reset, has no effect: that FIFO is always
empty. -/
def writeFcr (b : Byte) (u : Uart) : Uart :=
  if b[0] then
    { u with
      rxq := if !u.fcrFe || b[1] then [] else u.rxq
      fcrFe := true
      fcrDma := b[3]
      fcrTrig := fcrTrigBits b }
  else { u with rxq := if u.fcrFe then [] else u.rxq, fcrFe := false }

/-- WR_FCR (R112). -/
def execWrFcr (p : PortId) (b : Byte) (s : State) : Result := returnNothing (s.update p (writeFcr b))

end Sys2Proof.Machine
end

