-- ==== Sys2Proof/Machine/Line.lean ====
section
/-! DEFINITION. The line registers LCR, LSR and SCR, offsets 3, 5 and 7 (42_line_registers.md). -/

namespace Sys2Proof.Machine

/-- RD_LCR (R120). -/
def execRdLcr (p : PortId) (s : State) : Result := returnByte (s.uart p).lcr s

/-- WR_LCR (R121): bit 7 (DLAB) takes effect for the next operation on the port. -/
def execWrLcr (p : PortId) (b : Byte) (s : State) : Result :=
  returnNothing (s.update p (fun u => { u with lcr := b }))

/-- RD_LSR (R122): the four error bits are cleared after being returned. -/
def execRdLsr (p : PortId) (s : State) : Result := returnByte (lsr (s.uart p)) (s.update p clearErrors)

/-- WR_LSR (R123): no state change. -/
def execWrLsr (_p : PortId) (_b : Byte) (s : State) : Result := returnNothing s

/-- RD_SCR (R124). -/
def execRdScr (p : PortId) (s : State) : Result := returnByte (s.uart p).scr s

/-- WR_SCR (R125). -/
def execWrScr (p : PortId) (b : Byte) (s : State) : Result :=
  returnNothing (s.update p (fun u => { u with scr := b }))

end Sys2Proof.Machine
end

