-- ==== Sys2Proof/Machine/Modem.lean ====
section
/-! DEFINITION. The modem registers MCR and MSR and the loopback, offsets 4 and 6 (43_modem_registers.md). -/

namespace Sys2Proof.Machine

/-- RD_MCR (R132): bits 7:5 read 0. -/
def execRdMcr (p : PortId) (s : State) : Result := returnByte ((s.uart p).mcr.setWidth 8) s

/-- The loopback synthesis at the end of a WR_MCR (R133). -/
def loopback (b : Byte) (u : Uart) : Uart :=
  if b[4] then statusUpdate (loopNibble b) Config.loopbackDeltas u else u

/-- WR_MCR (R133): store, emit the control lines, let the device act, then synthesise MSR in loopback. -/
def execWrMcr (p : PortId) (b : Byte) (s : State) : Result :=
  returnNothing
    ((emitToBus (.ctrl p (lowNibble b)) (s.update p (fun u => { u with mcr := mcrBits b }))).update p (loopback b))

/-- RD_MSR (R134): the delta bits are cleared after being returned. -/
def execRdMsr (p : PortId) (s : State) : Result :=
  returnByte (msr (s.uart p)) (s.update p (fun u => { u with msrDelta := 0#4 }))

/-- WR_MSR (R135): no state change. -/
def execWrMsr (_p : PortId) (_b : Byte) (s : State) : Result := returnNothing s

end Sys2Proof.Machine
end

