-- ==== Sys2Proof/Machine/Dispatch.lean ====
section
/-! DEFINITION. One arm per constructor of Instr. -/

namespace Sys2Proof.Machine

def exec (i : Instr) (s : State) : Host.Outcome State Fault Refusal :=
  match i with
  -- offsets 0 and 1
  | .rdRbr p => Sys2Proof.Machine.execRdRbr p s
  | .wrThr p b => Sys2Proof.Machine.execWrThr p b s
  | .rdDll p => Sys2Proof.Machine.execRdDll p s
  | .wrDll p b => Sys2Proof.Machine.execWrDll p b s
  | .rdIer p => Sys2Proof.Machine.execRdIer p s
  | .wrIer p b => Sys2Proof.Machine.execWrIer p b s
  | .rdDlm p => Sys2Proof.Machine.execRdDlm p s
  | .wrDlm p b => Sys2Proof.Machine.execWrDlm p b s
  -- offset 2
  | .rdIir p => Sys2Proof.Machine.execRdIir p s
  | .wrFcr p b => Sys2Proof.Machine.execWrFcr p b s
  -- offsets 3, 5 and 7
  | .rdLcr p => Sys2Proof.Machine.execRdLcr p s
  | .wrLcr p b => Sys2Proof.Machine.execWrLcr p b s
  | .rdLsr p => Sys2Proof.Machine.execRdLsr p s
  | .wrLsr p b => Sys2Proof.Machine.execWrLsr p b s
  | .rdScr p => Sys2Proof.Machine.execRdScr p s
  | .wrScr p b => Sys2Proof.Machine.execWrScr p b s
  -- offsets 4 and 6
  | .rdMcr p => Sys2Proof.Machine.execRdMcr p s
  | .wrMcr p b => Sys2Proof.Machine.execWrMcr p b s
  | .rdMsr p => Sys2Proof.Machine.execRdMsr p s
  | .wrMsr p b => Sys2Proof.Machine.execWrMsr p b s
  -- events
  | .evRx p b => Sys2Proof.Machine.execEvRx p b s
  | .evMstat p st => Sys2Proof.Machine.execEvMstat p st s
  | .evReset => Sys2Proof.Machine.execEvReset s

end Sys2Proof.Machine
end

