-- ==== Sys2Proof/Machine/Fetch.lean ====
section
/-! DEFINITION. From a call to an operation: the address decode (R50, R51), the key of a host access (R72, R75),
the accesses that reach no UART (R54); and the way back, the call that makes a given operation triple. -/

namespace Sys2Proof.Machine

/-- The effective I/O port, `(addr >> PORT_SHIFT) & PORT_MASK` (R50). -/
def ioPort (addr : Word) : IoPort := ((addr >>> Config.portShift) &&& Config.portMask).setWidth 11

/-- The base port of a UART (R51). -/
def basePort : PortId → IoPort
  | .com1 => Config.com1Base
  | .com2 => Config.com2Base

/-- A port lies in the range of 8 ports that starts at `base` (R51). -/
def inRange (base port : IoPort) : Bool := decide (base ≤ port ∧ port ≤ base + 7#11)

/-- The UART and register offset that an I/O port selects, if any (R51). No earlier range of the dispatcher
overlaps these two (R52, log entry 6). -/
def selectUart (port : IoPort) : Option (PortId × Offset) :=
  if inRange Config.com1Base port then some (.com1, (port - Config.com1Base).setWidth 3)
  else if inRange Config.com2Base port then some (.com2, (port - Config.com2Base).setWidth 3)
  else none

/-- DLAB of port p, sampled when a host access arrives (R72). -/
def State.dlab (s : State) (p : PortId) : Bool := dlabOf (s.uart p).lcr

/-- The operation triple that a call makes (R53, R72, R75, R76); none when a host address selects no UART. -/
def operationOf (c : Call) (s : State) : Option Operation :=
  match c with
  | .superioRead addr =>
    match selectUart (ioPort addr) with
    | some (p, off) => some ⟨hostKey false (s.dlab p) off, p, 0#8⟩
    | none => none
  | .superioWrite addr val =>
    match selectUart (ioPort addr) with
    | some (p, off) => some ⟨hostKey true (s.dlab p) off, p, writeData val⟩
    | none => none
  | .deviceWriteData p b => some ⟨eventKey 1#2, p, b⟩
  | .deviceStatus p st => some ⟨eventKey 2#2, p, st⟩
  | .superioReset => some ⟨eventKey 3#2, .com1, 0#8⟩

/-- What the dispatcher answers to a read of a port that is no UART's: 0xFF where no range matches (R54), a free
value where another sub-engine answers (log entry 7). -/
def foreignRead (port : IoPort) (n : Nat) : Byte :=
  if Config.otherEngine port then Config.otherRead n port else 0xFF#8

/-- A call that makes no operation of the block: it changes no state of the block (R54). -/
def foreignAccess (c : Call) (s : State) : State :=
  match c with
  | .superioRead addr => { s with result := some (foreignRead (ioPort addr) s.fresh), fresh := s.fresh + 1 }
  | .superioWrite _ _ => { s with result := none }
  | .deviceWriteData _ _ => s
  | .deviceStatus _ _ => s
  | .superioReset => s

/-- A host address of a register: `port << 2`, one of the aliases of R50. -/
def hostAddr (p : PortId) (off : Offset) : Word := (basePort p + off.setWidth 11).setWidth 32 <<< Config.portShift

/-- The call that makes an operation triple, if an agent can make it (R71, R75, R77). -/
def callOf (o : Operation) : Option Call :=
  if o.kind == 0#2 then
    if o.key[4] then some (.superioWrite (hostAddr o.p (o.key.setWidth 3)) (o.data.setWidth 32))
    else some (.superioRead (hostAddr o.p (o.key.setWidth 3)))
  else if !o.wellFormed then none
  else if o.kind == 1#2 then some (.deviceWriteData o.p o.data)
  else if o.kind == 2#2 then some (.deviceStatus o.p o.data)
  else some .superioReset

/-- Set LCR[7] of a port record. -/
def setDlab (d : Bool) (u : Uart) : Uart :=
  { u with lcr := if d then u.lcr ||| 0x80#8 else u.lcr &&& 0x7F#8 }

/-- Make an operation the next one: its call goes in front of the pending ones, and for a host access LCR[7] of its port
takes the DLAB bit of the key, since the key samples it (R72). A reserved key changes nothing: no agent can
issue it (R77, log entry 13). -/
def placeOperation (o : Operation) (s : State) : State :=
  match callOf o with
  | none => s
  | some c =>
    let t := if o.kind == 0#2 then s.update o.p (setDlab (o.key[3])) else s
    { t with calls := c :: t.calls }

/-- Make the operation written in three bytes the next one. -/
def placeBytes (bs : List Byte) (s : State) : State :=
  match operationOfBytes bs with
  | .ok o => placeOperation o s
  | .error _ => s

end Sys2Proof.Machine
end

