-- ==== Sys2Proof/Machine/Perform.lean ====
section
/-! DEFINITION. Running one operation triple, and running one call. -/

namespace Sys2Proof.Machine

/-- Run an operation triple: decode its key and execute; the decoder's refusals stand by name (R77). -/
def performOperation (o : Operation) (s : State) : Result :=
  match decodeOp o with
  | .ok i => exec i s
  | .error e => .refused (.undecodable e)

/-- Run one call (R53, R54). -/
def performCall (c : Call) (s : State) : Result :=
  match operationOf c s with
  | some o => performOperation o s
  | none => .next (foreignAccess c s)

end Sys2Proof.Machine
end

