-- ==== Sys2Proof/Machine/Step.lean ====
section
/-! DEFINITION. One step is one call (R6): the oldest pending one is taken off and run. With none pending nothing happens: nothing in the block
advances by itself (R161, R179; log entry 1). -/

namespace Sys2Proof.Machine

def step (s : State) : Host.Outcome State Fault Refusal :=
  match s.calls with
  | [] => .next s
  | c :: rest => performCall c { s with calls := rest }

/-- `s` with the operation whose table bits are `w` as the next one to run (log entry 13). -/
def State.withFetchWord (s : State) (nbits w : Nat) : State := placeBytes (tableBytes nbits w) s

end Sys2Proof.Machine
end

