-- ==== Sys2Proof/Machine/Assembler.lean ====
section
/-! DEFINITION. The assembly syntax of R80, down to the calls that make each line's operation, and the
pseudo-operations of R81. -/

namespace Sys2Proof

/-- Why an assembler refuses a line (R80). -/
inductive AsmError where
  /-- the register cannot be used in that direction, or a numeric offset is above 7 -/
  | badRegister
  /-- the named register needs a DLAB value that LCR[7] does not have -/
  | dlabMismatch
deriving DecidableEq, Repr

/-- The offset of a named register (R55, R73, R80). -/
def RegName.offset : RegName → Offset
  | .rbr => 0#3
  | .thr => 0#3
  | .dll => 0#3
  | .ier => 1#3
  | .dlm => 1#3
  | .iir => 2#3
  | .fcr => 2#3
  | .lcr => 3#3
  | .mcr => 4#3
  | .lsr => 5#3
  | .msr => 6#3
  | .scr => 7#3

/-- The DLAB value a register name implies (R80); none where either will do. -/
def RegName.dlabImplied : RegName → Option Bool
  | .rbr => some false
  | .thr => some false
  | .ier => some false
  | .dll => some true
  | .dlm => some true
  | .iir => none
  | .fcr => none
  | .lcr => none
  | .mcr => none
  | .lsr => none
  | .msr => none
  | .scr => none

/-- The offset a register operand gives under a DLAB value; a numeric offset is always accepted (R80). -/
def RegRef.offsetUnder (dlab : Bool) : RegRef → Except AsmError Offset
  | .offset n => .ok (BitVec.ofNat 3 n)
  | .named r =>
    match r.dlabImplied with
    | none => .ok r.offset
    | some d => if d == dlab then .ok r.offset else .error .dlabMismatch

end Sys2Proof

namespace Sys2Proof.Machine

/-- The operation triple of a line, "its (key, p, data) triple" (R80), in a state whose LCR[7] bits decide DLAB. -/
def assemble (l : Line) (s : State) : Except AsmError Operation :=
  if !l.wellFormed then .error .badRegister
  else
    match l with
    | .rd p r =>
      match r.offsetUnder (s.dlab p) with
      | .ok off => .ok ⟨hostKey false (s.dlab p) off, p, 0#8⟩
      | .error e => .error e
    | .wr p r b =>
      match r.offsetUnder (s.dlab p) with
      | .ok off => .ok ⟨hostKey true (s.dlab p) off, p, b⟩
      | .error e => .error e
    | .rx p b => .ok ⟨eventKey 1#2, p, b⟩
    | .ms p b => .ok ⟨eventKey 2#2, p, b⟩
    | .reset => .ok ⟨eventKey 3#2, .com1, 0#8⟩

/-- `SETDIV p, d` with LCR value `l`, whose bit 7 is 0 (R81). -/
def setDiv (p : PortId) (d : BitVec 16) (l : Byte) : List Line :=
  [ .wr p (.named .lcr) (l ||| 0x80#8),
    .wr p (.named .dll) (d.extractLsb' 0 8),
    .wr p (.named .dlm) (d.extractLsb' 8 8),
    .wr p (.named .lcr) l ]

/-- `POLLTX p, b` (R81). -/
def pollTx (p : PortId) (b : Byte) : List Line := [.rd p (.named .lsr), .wr p (.named .thr) b]

/-- The first operation of `ACKINT p` (R81). -/
def ackInt (p : PortId) : List Line := [.rd p (.named .iir)]

/-- The rest of `ACKINT p`, by the low nibble of what the IIR read returned (R81; any other nibble calls for
nothing, log entry 14). -/
def ackIntRest (p : PortId) (v : Byte) : List Line :=
  if v.setWidth 4 == 0x6#4 then [.rd p (.named .lsr)]
  else if v.setWidth 4 == 0x4#4 then [.rd p (.named .rbr)]
  else if v.setWidth 4 == 0x0#4 then [.rd p (.named .msr)]
  else []

end Sys2Proof.Machine
end

