-- ==== Sys2Proof/Safety.lean ====
section
/-! DEFINITION. What counts as a good state (the invariants of R22, R36 and R37), and the terms in which claims
say what an operation does and what it leaves alone. -/

namespace Sys2Proof.Machine

/-- The invariants of one port: the queue fits its capacity (R37 c), and PE, FE and BI are 0 (R37 b). -/
abbrev Uart.Inv (u : Uart) : Prop := u.rxq.length ≤ rxCap u ∧ u.pe = false ∧ u.fe = false ∧ u.bi = false

/-- The invariants of both ports. -/
abbrev State.PortsInv (s : State) : Prop := s.com1.Inv ∧ s.com2.Inv

/-- The serial FIQ bit reflects the state left by the latest operation (R36, R61, R155). -/
abbrev State.FiqCurrent (s : State) : Prop := s.fiqSerial = serialLevel s

/-- What every step keeps. -/
abbrev State.Inv (s : State) : Prop := s.PortsInv ∧ s.FiqCurrent

/-- The last thing every operation puts out: the serial bit, at its level in `t`, and the call of `updateirqs()` (R155). -/
def irqOutput (t : State) : Output := .updateirqs Config.serialFiqBit (serialLevel t)

/-- What surrounds the block, and no operation changes: the calls still to come and the free-value counter. -/
def SameSurroundings (s t : State) : Prop := t.calls = s.calls ∧ t.fresh = s.fresh

/-- `t` is what an operation on port `p` leaves from `s`: port p's record is `u`, the other port's is as before, `r` is
returned, `es` and then the interrupt re-evaluation are put out, the serial bit is current, and nothing else
changed. These clauses fix every field of `t`. -/
def LeavesPort (s : State) (p : PortId) (u : Uart) (r : Option Byte) (es : List Output) (t : State) : Prop :=
  t.uart p = u ∧ t.uart p.other = s.uart p.other ∧ t.result = r ∧ t.outputs = s.outputs ++ es ++ [irqOutput t] ∧
    t.fiqSerial = serialLevel t ∧ t.reactions = s.reactions ∧ SameSurroundings s t

/-- An operation completes: it answers a next state, the one `LeavesPort` fixes. -/
def CompletesWith (i : Instr) (s : State) (p : PortId) (u : Uart) (r : Option Byte) (es : List Output) : Prop :=
  ∃ t, exec i s = .next t ∧ LeavesPort s p u r es t

/-- The keys of an operation's encoding: with port p and data b, each of `ks` decodes to `i` (R70, R73, R74). -/
def EncodedBy (ks : List (BitVec 7)) (p : PortId) (b : Byte) (i : Instr) : Prop := ∀ k ∈ ks, decodeOp ⟨k, p, b⟩ = .ok i

/-- Run a list of operations one after another; every operation completes (R6), so a stop, which cannot arise,
leaves the state as it is. -/
def runOps (s : State) : List Instr → State
  | [] => s
  | i :: is =>
    match exec i s with
    | .next t => runOps t is
    | .fault _ => s
    | .refused _ => s

/-- `n` RBR reads of port p, one after another: the values they return, and the state they leave. -/
def drain (p : PortId) : Nat → State → List (Option Byte) × State
  | 0, s => ([], s)
  | n + 1, s =>
    match exec (.rdRbr p) s with
    | .next t => (t.result :: (drain p n t).1, (drain p n t).2)
    | .fault _ => ([], s)
    | .refused _ => ([], s)

/-- The state in which WR_THR and WR_MCR go on after their emit (R60): `o` is put out, and the next reaction's events have
run, each as the EV_RX or EV_MSTAT operation it is. -/
def afterReaction (o : Output) (s : State) : State :=
  match s.reactions with
  | [] => { s with outputs := s.outputs ++ [o] }
  | es :: later => runOps { s with outputs := s.outputs ++ [o], reactions := later } (es.map DeviceEvent.instr)

/-- Run lines of an operation list (R80), each assembled in the state it meets; a line the assembler refuses changes
nothing. -/
def runLines (s : State) : List Line → State
  | [] => s
  | l :: ls =>
    match assemble l s with
    | .error _ => runLines s ls
    | .ok o =>
      match performOperation o s with
      | .next t => runLines t ls
      | .fault _ => s
      | .refused _ => s

/-- An output that goes to a serial bus, not to the interrupt controller (R11). -/
def toBus : Output → Bool
  | .tx _ _ => true
  | .ctrl _ _ => true
  | .updateirqs _ _ => false

/-- A port record with the FCR DMA and trigger fields blanked out (R28). -/
def Uart.hideDmaTrig (u : Uart) : Uart := { u with fcrDma := false, fcrTrig := 0#2 }

/-- A state with both ports' FCR DMA and trigger fields blanked out: what can be observed, and all else. -/
def State.hideDmaTrig (s : State) : State := { s with com1 := s.com1.hideDmaTrig, com2 := s.com2.hideDmaTrig }

/-- The read side of the register map (R55). -/
def readAt (p : PortId) (dlab : Bool) (off : Offset) : Instr :=
  match off.toNat with
  | 0 => if dlab then .rdDll p else .rdRbr p
  | 1 => if dlab then .rdDlm p else .rdIer p
  | 2 => .rdIir p
  | 3 => .rdLcr p
  | 4 => .rdMcr p
  | 5 => .rdLsr p
  | 6 => .rdMsr p
  | _ => .rdScr p

/-- The write side of the register map (R55). -/
def writeAt (p : PortId) (dlab : Bool) (off : Offset) (b : Byte) : Instr :=
  match off.toNat with
  | 0 => if dlab then .wrDll p b else .wrThr p b
  | 1 => if dlab then .wrDlm p b else .wrIer p b
  | 2 => .wrFcr p b
  | 3 => .wrLcr p b
  | 4 => .wrMcr p b
  | 5 => .wrLsr p b
  | 6 => .wrMsr p b
  | _ => .wrScr p b

end Sys2Proof.Machine
end

