-- ==== Sys2Proof/Certificates/Slice0/Obligations.lean ====
section
/-! DEFINITION. The statements for the provers. Each docstring names the rules of spec/ it formalises; in a per-operation
statement, `CompletesWith` and `LeavesPort` (Safety.lean) fix every field of the next state: the effect and the frame. -/

open Sys2Proof Sys2Proof.Machine

/-! ## Encoding -/

/-- R73: the table of host-access keys, both values of DLAB for offsets 2 to 7, and every host-access key (KIND 0) is hit by
exactly one row. -/
def Obligations.HostAccessKeysDecode : Prop :=
  (∀ (p : PortId) (b : Byte),
    decodeOp ⟨0b0000000#7, p, b⟩ = .ok (.rdRbr p) ∧ decodeOp ⟨0b0010000#7, p, b⟩ = .ok (.wrThr p b) ∧
    decodeOp ⟨0b0001000#7, p, b⟩ = .ok (.rdDll p) ∧ decodeOp ⟨0b0011000#7, p, b⟩ = .ok (.wrDll p b) ∧
    decodeOp ⟨0b0000001#7, p, b⟩ = .ok (.rdIer p) ∧ decodeOp ⟨0b0010001#7, p, b⟩ = .ok (.wrIer p b) ∧
    decodeOp ⟨0b0001001#7, p, b⟩ = .ok (.rdDlm p) ∧ decodeOp ⟨0b0011001#7, p, b⟩ = .ok (.wrDlm p b) ∧
    decodeOp ⟨0b0000010#7, p, b⟩ = .ok (.rdIir p) ∧ decodeOp ⟨0b0001010#7, p, b⟩ = .ok (.rdIir p) ∧
    decodeOp ⟨0b0010010#7, p, b⟩ = .ok (.wrFcr p b) ∧ decodeOp ⟨0b0011010#7, p, b⟩ = .ok (.wrFcr p b) ∧
    decodeOp ⟨0b0000011#7, p, b⟩ = .ok (.rdLcr p) ∧ decodeOp ⟨0b0001011#7, p, b⟩ = .ok (.rdLcr p) ∧
    decodeOp ⟨0b0010011#7, p, b⟩ = .ok (.wrLcr p b) ∧ decodeOp ⟨0b0011011#7, p, b⟩ = .ok (.wrLcr p b) ∧
    decodeOp ⟨0b0000101#7, p, b⟩ = .ok (.rdLsr p) ∧ decodeOp ⟨0b0001101#7, p, b⟩ = .ok (.rdLsr p) ∧
    decodeOp ⟨0b0010101#7, p, b⟩ = .ok (.wrLsr p b) ∧ decodeOp ⟨0b0011101#7, p, b⟩ = .ok (.wrLsr p b) ∧
    decodeOp ⟨0b0000111#7, p, b⟩ = .ok (.rdScr p) ∧ decodeOp ⟨0b0001111#7, p, b⟩ = .ok (.rdScr p) ∧
    decodeOp ⟨0b0010111#7, p, b⟩ = .ok (.wrScr p b) ∧ decodeOp ⟨0b0011111#7, p, b⟩ = .ok (.wrScr p b) ∧
    decodeOp ⟨0b0000100#7, p, b⟩ = .ok (.rdMcr p) ∧ decodeOp ⟨0b0001100#7, p, b⟩ = .ok (.rdMcr p) ∧
    decodeOp ⟨0b0010100#7, p, b⟩ = .ok (.wrMcr p b) ∧ decodeOp ⟨0b0011100#7, p, b⟩ = .ok (.wrMcr p b) ∧
    decodeOp ⟨0b0000110#7, p, b⟩ = .ok (.rdMsr p) ∧ decodeOp ⟨0b0001110#7, p, b⟩ = .ok (.rdMsr p) ∧
    decodeOp ⟨0b0010110#7, p, b⟩ = .ok (.wrMsr p b) ∧ decodeOp ⟨0b0011110#7, p, b⟩ = .ok (.wrMsr p b)) ∧
  ∀ k : BitVec 7, k.extractLsb' 5 2 = 0#2 → (opRows.filter (fun r => r.hits k)).length = 1

/-- R74: the event keys. -/
def Obligations.EventKeysDecode : Prop :=
  ∀ (p : PortId) (b : Byte),
    decodeOp ⟨0x20#7, p, b⟩ = .ok (.evRx p b) ∧ decodeOp ⟨0x40#7, p, b⟩ = .ok (.evMstat p b) ∧
    decodeOp ⟨0x60#7, p, b⟩ = .ok .evReset

/-- R77: exactly the keys with KIND not 0 and bits 4:0 not 0 are refused, under the name of the reserved key; running such a
triple is a refusal, not a step; and no agent's call makes one. -/
def Obligations.ReservedKeysAreRefused : Prop :=
  (∀ (c : Call) (s : State) (o : Operation), operationOf c s = some o →
    o.key.extractLsb' 5 2 = 0#2 ∨ o.key.extractLsb' 0 5 = 0#5) ∧
  ∀ (o : Operation) (s : State),
    (decodeOp o = .error .reservedKey ↔ (o.key.extractLsb' 5 2 ≠ 0#2 ∧ o.key.extractLsb' 0 5 ≠ 0#5)) ∧
    ((∃ i, decodeOp o = .ok i) ↔ (o.key.extractLsb' 5 2 = 0#2 ∨ o.key.extractLsb' 0 5 = 0#5)) ∧
    (o.key.extractLsb' 5 2 ≠ 0#2 ∧ o.key.extractLsb' 0 5 ≠ 0#5 →
      performOperation o s = .refused (.undecodable .reservedKey))

/-- Decode and encode agree (R70 to R76), on triples and on bytes, for every operation, every operand and either sampled DLAB
bit; and back: a triple that decodes has the key that the encoder writes for its own DLAB bit, and its port and data wherever
the operation has them. The byte layout is the model's choice, log entry 9. -/
def Obligations.DecodeAndEncodeAgree : Prop :=
  (∀ (dlab : Bool) (i : Instr),
    decodeOp (encodeOp dlab i) = .ok i ∧ decodeBytes (bytesOfOperation (encodeOp dlab i)) = .ok i) ∧
  ∀ (o : Operation) (i : Instr), decodeOp o = .ok i →
    (encodeOp (o.key[3]) i).key = o.key ∧
    (∀ p, i.port? = some p → p = o.p) ∧
    ((encodeOp (o.key[3]) i).data = o.data ∨ (encodeOp (o.key[3]) i).data = 0#8)

/-! ## Steps -/

/-- A step runs the decoded operation: when the oldest pending call makes an operation triple that decodes to `i`, the step is
`i` executed with that call taken off; with no call pending nothing changes (the queue of calls is the model's choice, log entry
1). -/
def Obligations.StepRunsTheDecodedOperation : Prop :=
  (∀ (s : State) (c : Call) (rest : List Call) (o : Operation) (i : Instr),
    s.calls = c :: rest → operationOf c s = some o → decodeOp o = .ok i →
      step s = exec i { s with calls := rest }) ∧
  ∀ s : State, s.calls = [] → step s = .next s

/-- No step fails, traps or blocks: from every state, a step answers a next state (R6, R150). -/
def Obligations.EveryStepCompletes : Prop := ∀ s : State, ∃ t, step s = .next t

/-- A host access whose address decodes into a UART's range runs the register map's operation (R50, R51, R53, R55, R72, R75):
port number `(addr >> 2) & 0x7FF`, DLAB sampled from LCR[7], `val[7:0]` as data. The base ports 0x3F8 and 0x2F8 are the
spec's general knowledge, log entry 5. -/
def Obligations.HostAccessReachesItsRegister : Prop :=
  ∀ (s : State) (p : PortId) (off : Offset) (addr val : Word) (rest : List Call),
    addr.toNat / 4 % 0x800 = (match p with | .com1 => 0x3F8 | .com2 => 0x2F8) + off.toNat →
      step { s with calls := .superioRead addr :: rest } =
        exec (readAt p ((s.uart p).lcr[7]) off) { s with calls := rest } ∧
      step { s with calls := .superioWrite addr val :: rest } =
        exec (writeAt p ((s.uart p).lcr[7]) off (val.setWidth 8)) { s with calls := rest }

/-- Address bits 1:0 and 31:13 and value bits 31:8 are ignored (R50, R53, R57): accesses that agree in the others make the same
step. -/
def Obligations.HostAccessIgnoresUnusedBits : Prop :=
  ∀ (s : State) (a b v w : Word) (rest : List Call),
    a.extractLsb' 2 11 = b.extractLsb' 2 11 → v.setWidth 8 = w.setWidth 8 →
      step { s with calls := .superioRead a :: rest } = step { s with calls := .superioRead b :: rest } ∧
      step { s with calls := .superioWrite a v :: rest } = step { s with calls := .superioWrite b w :: rest }

/-- A host access to a port of neither UART changes no state of the block and puts nothing out (R54); a read answers 0xFF where no
other sub-engine has the port. Which ports those are and what they answer are free values, log entry 7. -/
def Obligations.ForeignAccessLeavesTheBlockAlone : Prop :=
  ∀ (s : State) (addr val : Word) (rest : List Call),
    (∀ k < 8, addr.toNat / 4 % 0x800 ≠ 0x3F8 + k ∧ addr.toNat / 4 % 0x800 ≠ 0x2F8 + k) →
      (∃ t, step { s with calls := .superioRead addr :: rest } = .next t ∧
        t.com1 = s.com1 ∧ t.com2 = s.com2 ∧ t.fiqSerial = s.fiqSerial ∧ t.outputs = s.outputs ∧
        t.reactions = s.reactions ∧ t.calls = rest ∧
        t.result = some (if Config.otherEngine (BitVec.ofNat 11 (addr.toNat / 4)) = true then
          Config.otherRead s.fresh (BitVec.ofNat 11 (addr.toNat / 4)) else 0xFF#8)) ∧
      (∃ t, step { s with calls := .superioWrite addr val :: rest } = .next t ∧
        t.com1 = s.com1 ∧ t.com2 = s.com2 ∧ t.fiqSerial = s.fiqSerial ∧ t.outputs = s.outputs ∧
        t.reactions = s.reactions ∧ t.calls = rest ∧ t.result = none)

/-- The three device and reset calls make their operations (R76). -/
def Obligations.EventCallsMakeTheirOperations : Prop :=
  ∀ (s : State) (p : PortId) (b : Byte) (rest : List Call),
    step { s with calls := .deviceWriteData p b :: rest } = exec (.evRx p b) { s with calls := rest } ∧
    step { s with calls := .deviceStatus p b :: rest } = exec (.evMstat p b) { s with calls := rest } ∧
    step { s with calls := .superioReset :: rest } = exec .evReset { s with calls := rest }

/-- What `withFetchWord` promises (log entry 13): if the table's bits `w` decode to `i`, the next step from `s.withFetchWord nbits w`
executes `i`, with only LCR[7] of the operation's port set to the key's DLAB bit, for a host access. -/
def Obligations.FetchWordRunsItsOperation : Prop :=
  ∀ (s : State) (nbits w : Nat) (i : Instr), decodeTableWord nbits w = some i →
    ∃ t, step (s.withFetchWord nbits w) = exec i t ∧
      (t = s ∨ ∃ p b, i.port? = some p ∧ b.extractLsb' 0 7 = (s.uart p).lcr.extractLsb' 0 7 ∧
        b[7] = (w % 2 ^ nbits).testBit 3 ∧ t = s.setUart p { s.uart p with lcr := b })

/-! ## The DLAB-aliased registers -/

/-- R100: an RBR read returns and removes the oldest received byte; with none it returns the last one and changes nothing. -/
def Obligations.ReadRbrTakesTheOldestByte : Prop :=
  ∀ (p : PortId) (b : Byte) (s : State),
    EncodedBy [0x00#7] p b (.rdRbr p) ∧
    (∀ v q, (s.uart p).rxq = v :: q →
      CompletesWith (.rdRbr p) s p { s.uart p with rxq := q, rbrLast := v } (some v) []) ∧
    ((s.uart p).rxq = [] → CompletesWith (.rdRbr p) s p (s.uart p) (some (s.uart p).rbrLast) [])

/-- R101: a THR write emits its byte, lets the device act, and then sets the THRE latch. Whatever the device does is covered: its events
stand in State (log entry 2), and the state is any. -/
def Obligations.WriteThrEmitsThenArmsThre : Prop :=
  ∀ (p : PortId) (b : Byte) (s : State),
    EncodedBy [0x10#7] p b (.wrThr p b) ∧
    ∃ t, exec (.wrThr p b) s = .next t ∧
      LeavesPort (afterReaction (.tx p b) s) p
        { (afterReaction (.tx p b) s).uart p with threPending := true } none [] t

/-- R102, R103, R106, R107: the divisor latch bytes are read and written, and nothing else changes. -/
def Obligations.DivisorLatchReadsAndWrites : Prop :=
  ∀ (p : PortId) (b : Byte) (s : State),
    EncodedBy [0x08#7] p b (.rdDll p) ∧ EncodedBy [0x18#7] p b (.wrDll p b) ∧
    EncodedBy [0x09#7] p b (.rdDlm p) ∧ EncodedBy [0x19#7] p b (.wrDlm p b) ∧
    CompletesWith (.rdDll p) s p (s.uart p) (some (s.uart p).dll) [] ∧
    CompletesWith (.wrDll p b) s p { s.uart p with dll := b } none [] ∧
    CompletesWith (.rdDlm p) s p (s.uart p) (some (s.uart p).dlm) [] ∧
    CompletesWith (.wrDlm p b) s p { s.uart p with dlm := b } none []

/-- R104: an IER read returns the four enable bits, bits 7:4 zero. -/
def Obligations.ReadIerZeroExtends : Prop :=
  ∀ (p : PortId) (b : Byte) (s : State),
    EncodedBy [0x01#7] p b (.rdIer p) ∧ CompletesWith (.rdIer p) s p (s.uart p) (some (0#4 ++ (s.uart p).ier)) []

/-- R105: an IER write stores bits 3:0; when ETBEI changes the THRE latch takes the new ETBEI. -/
def Obligations.WriteIerArmsThreOnEtbeiChange : Prop :=
  ∀ (p : PortId) (b : Byte) (s : State),
    EncodedBy [0x11#7] p b (.wrIer p b) ∧
    CompletesWith (.wrIer p b) s p
      { s.uart p with
        ier := b.extractLsb' 0 4
        threPending := if (s.uart p).ier[1] = b[1] then (s.uart p).threPending else b[1] }
      none []

/-- The divisor never shows through RBR or IER (R107, the §8 round-trip property): after a write of DLL, DLM or LCR, an RBR read and
an IER read return what they would have returned before it. -/
def Obligations.DivisorNeverShowsThroughRbrOrIer : Prop :=
  ∀ (p : PortId) (b : Byte) (i : Instr) (s t : State),
    i = .wrDll p b ∨ i = .wrDlm p b ∨ i = .wrLcr p b → exec i s = .next t →
      (∃ before after, exec (.rdRbr p) s = .next before ∧ exec (.rdRbr p) t = .next after ∧
        after.result = before.result) ∧
      (∃ before after, exec (.rdIer p) s = .next before ∧ exec (.rdIer p) t = .next after ∧
        after.result = before.result)

/-! ## IIR and FCR -/

/-- R110: the priority encoder, from the fields of the record. -/
def Obligations.IirIsThePriorityEncoder : Prop :=
  ∀ u : Uart,
    let fifo : Byte := if u.fcrFe = true then 0xC0#8 else 0x00#8
    let rls := u.ier[2] = true ∧ (u.oe = true ∨ u.pe = true ∨ u.fe = true ∨ u.bi = true)
    let rda := u.ier[0] = true ∧ u.rxq ≠ []
    let thre := u.ier[1] = true ∧ u.threPending = true
    let modem := u.ier[3] = true ∧ u.msrDelta ≠ 0#4
    (rls → iir u = fifo ||| 0x06#8) ∧
    (¬rls ∧ rda → iir u = fifo ||| 0x04#8) ∧
    (¬rls ∧ ¬rda ∧ thre → iir u = fifo ||| 0x02#8) ∧
    (¬rls ∧ ¬rda ∧ ¬thre ∧ modem → iir u = fifo ||| 0x00#8) ∧
    (¬rls ∧ ¬rda ∧ ¬thre ∧ ¬modem → iir u = fifo ||| 0x01#8)

/-- The values that IIR can take, exactly (an inference that R110 marks as derived from its encoder). -/
def Obligations.IirTakesTenValues : Prop :=
  ∀ v : Byte, (∃ u : Uart, iir u = v) ↔
    v ∈ [0x01#8, 0x06#8, 0x04#8, 0x02#8, 0x00#8, 0xC1#8, 0xC6#8, 0xC4#8, 0xC2#8, 0xC0#8]

/-- R111: an IIR read returns the encoder's value and clears the THRE latch when THRE is the source it reports. -/
def Obligations.ReadIirAcknowledgesThre : Prop :=
  ∀ (p : PortId) (b : Byte) (s : State),
    EncodedBy [0x02#7, 0x0A#7] p b (.rdIir p) ∧
    CompletesWith (.rdIir p) s p
      (if (iir (s.uart p)).extractLsb' 0 4 = 0x2#4 then { s.uart p with threPending := false } else s.uart p)
      (some (iir (s.uart p))) []

/-- R112: an FCR write without bit 0 leaves FIFO mode, emptying the queue if it was in it, and programs nothing else; with bit 0 it
enters FIFO mode, emptying the queue on entry or on bit 1, and stores the DMA and trigger bits. -/
def Obligations.WriteFcrProgramsTheFifo : Prop :=
  ∀ (p : PortId) (b : Byte) (s : State),
    EncodedBy [0x12#7, 0x1A#7] p b (.wrFcr p b) ∧
    (b[0] = false →
      CompletesWith (.wrFcr p b) s p
        { s.uart p with rxq := if (s.uart p).fcrFe = true then [] else (s.uart p).rxq, fcrFe := false } none []) ∧
    (b[0] = true →
      CompletesWith (.wrFcr p b) s p
        { s.uart p with
          rxq := if (s.uart p).fcrFe = false ∨ b[1] = true then [] else (s.uart p).rxq
          fcrFe := true
          fcrDma := b[3]
          fcrTrig := b.extractLsb' 6 2 }
        none [])

/-! ## Line registers -/

/-- R120, R121, R124, R125: LCR and SCR are read and written whole, and nothing else changes. -/
def Obligations.LcrAndScrReadAndWriteWhole : Prop :=
  ∀ (p : PortId) (b : Byte) (s : State),
    EncodedBy [0x03#7, 0x0B#7] p b (.rdLcr p) ∧ EncodedBy [0x13#7, 0x1B#7] p b (.wrLcr p b) ∧
    EncodedBy [0x07#7, 0x0F#7] p b (.rdScr p) ∧ EncodedBy [0x17#7, 0x1F#7] p b (.wrScr p b) ∧
    CompletesWith (.rdLcr p) s p (s.uart p) (some (s.uart p).lcr) [] ∧
    CompletesWith (.wrLcr p b) s p { s.uart p with lcr := b } none [] ∧
    CompletesWith (.rdScr p) s p (s.uart p) (some (s.uart p).scr) [] ∧
    CompletesWith (.wrScr p b) s p { s.uart p with scr := b } none []

/-- R31: the bits of the LSR view; THRE and TEMT are 1, bit 7 is 0. -/
def Obligations.LsrViewBits : Prop :=
  ∀ u : Uart,
    (lsr u)[0] = decide (0 < u.rxq.length) ∧ (lsr u)[1] = u.oe ∧ (lsr u)[2] = u.pe ∧
    (lsr u)[3] = u.fe ∧ (lsr u)[4] = u.bi ∧ (lsr u)[5] = true ∧ (lsr u)[6] = true ∧
    (lsr u)[7] = false

/-- R122, R123: an LSR read returns the view and clears OE, PE, FE and BI; an LSR write changes nothing. -/
def Obligations.LsrReadClearsErrorsWriteIgnored : Prop :=
  ∀ (p : PortId) (b : Byte) (s : State),
    EncodedBy [0x05#7, 0x0D#7] p b (.rdLsr p) ∧ EncodedBy [0x15#7, 0x1D#7] p b (.wrLsr p b) ∧
    CompletesWith (.rdLsr p) s p { s.uart p with oe := false, pe := false, fe := false, bi := false }
      (some (lsr (s.uart p))) [] ∧
    CompletesWith (.wrLsr p b) s p (s.uart p) none []

/-! ## Modem registers -/

/-- R132: an MCR read returns the five stored bits, bits 7:5 zero. -/
def Obligations.ReadMcrZeroExtends : Prop :=
  ∀ (p : PortId) (b : Byte) (s : State),
    EncodedBy [0x04#7, 0x0C#7] p b (.rdMcr p) ∧ CompletesWith (.rdMcr p) s p (s.uart p) (some (0#3 ++ (s.uart p).mcr)) []

/-- R133, over R130 and R131: an MCR write stores bits 4:0, emits the control lines, lets the device act, and in loopback then sets
the status nibble from the control bits and records the changes. Whatever the device does is covered: its events stand in State (log
entry 2), and the state is any. -/
def Obligations.WriteMcrEmitsThenLoopsBack : Prop :=
  ∀ (p : PortId) (b : Byte) (s : State),
    let stored := s.setUart p { s.uart p with mcr := b.extractLsb' 0 5 }
    let m := afterReaction (.ctrl p (b.extractLsb' 0 4)) stored
    let n : Nibble := BitVec.ofBool (b[3]) ++ BitVec.ofBool (b[2]) ++ BitVec.ofBool (b[0]) ++
      BitVec.ofBool (b[1])
    EncodedBy [0x14#7, 0x1C#7] p b (.wrMcr p b) ∧
    ∃ t, exec (.wrMcr p b) s = .next t ∧
      LeavesPort m p
        (if b[4] = true then
          { m.uart p with
            msrDelta := (m.uart p).msrDelta ||| ((m.uart p).msrStatus ^^^ n)
            msrStatus := n }
        else m.uart p)
        none [] t

/-- R134, R135: an MSR read returns status over delta and clears the delta bits; an MSR write changes nothing. -/
def Obligations.MsrReadClearsDeltasWriteIgnored : Prop :=
  ∀ (p : PortId) (b : Byte) (s : State),
    EncodedBy [0x06#7, 0x0E#7] p b (.rdMsr p) ∧ EncodedBy [0x16#7, 0x1E#7] p b (.wrMsr p b) ∧
    CompletesWith (.rdMsr p) s p { s.uart p with msrDelta := 0#4 }
      (some (((s.uart p).msrStatus.setWidth 8 <<< 4) ||| (s.uart p).msrDelta.setWidth 8)) [] ∧
    CompletesWith (.wrMsr p b) s p (s.uart p) none []

/-! ## Device events and reset -/

/-- R140: a received byte is queued while there is room (16 with the FIFO, else 1); a full FIFO loses it, a full holding register is
overwritten by it, and both set OE. -/
def Obligations.ReceivedByteQueuesOrOverruns : Prop :=
  ∀ (p : PortId) (b : Byte) (s : State),
    EncodedBy [0x20#7] p b (.evRx p b) ∧
    ((s.uart p).rxq.length < (if (s.uart p).fcrFe = true then 16 else 1) →
      CompletesWith (.evRx p b) s p { s.uart p with rxq := (s.uart p).rxq ++ [b] } none []) ∧
    ((s.uart p).fcrFe = true → 16 ≤ (s.uart p).rxq.length →
      CompletesWith (.evRx p b) s p { s.uart p with oe := true } none []) ∧
    ((s.uart p).fcrFe = false → 1 ≤ (s.uart p).rxq.length →
      CompletesWith (.evRx p b) s p { s.uart p with rxq := [b], oe := true } none [])

/-- R141: a modem-status event stores bits 7:4 and accumulates the changes in the delta nibble. -/
def Obligations.ModemStatusAccumulatesChanges : Prop :=
  ∀ (p : PortId) (st : Byte) (s : State),
    EncodedBy [0x40#7] p st (.evMstat p st) ∧
    CompletesWith (.evMstat p st) s p
      { s.uart p with
        msrStatus := st.extractLsb' 4 4
        msrDelta := (s.uart p).msrDelta ||| ((s.uart p).msrStatus ^^^ st.extractLsb' 4 4) }
      none []

/-- R170: reset sets every field of both ports and emits neither TX nor CTRL. -/
def Obligations.ResetSetsEveryField : Prop :=
  (∀ p b, EncodedBy [0x60#7] p b .evReset) ∧
  ∀ s : State, ∃ t, exec .evReset s = .next t ∧
    (∀ p, t.uart p =
      { rxq := [], rbrLast := Config.resetRbr, dll := Config.resetDll, dlm := Config.resetDlm, ier := 0#4, fcrFe := false,
        fcrDma := false, fcrTrig := 0#2, lcr := 0#8, mcr := 0#5, oe := false, pe := false, fe := false, bi := false,
        msrStatus := Config.resetMsrStatus, msrDelta := 0#4, scr := Config.resetScr, threPending := false }) ∧
    (∀ p, iir (t.uart p) = 0x01#8 ∧ lsr (t.uart p) = 0x60#8 ∧ msr (t.uart p) = Config.resetMsrStatus ++ 0#4 ∧
      intOut (t.uart p) = false) ∧
    t.fiqSerial = false ∧ t.result = none ∧ t.outputs = s.outputs ++ [.updateirqs Config.serialFiqBit false] ∧
    t.reactions = s.reactions ∧ SameSurroundings s t

/-- The registers as a program sees them after reset (the table of R171, which the spec derives from R170), for every value of the
OPEN parameters: what each read returns, no data and no latch left, FIFO off, no interrupt. -/
def Obligations.RegistersAfterReset : Prop :=
  ∀ (s t : State) (p : PortId), exec .evReset s = .next t →
    (∀ r ∈ [(Instr.rdRbr p, Config.resetRbr), (.rdDll p, Config.resetDll), (.rdDlm p, Config.resetDlm), (.rdIer p, 0x00#8),
        (.rdIir p, 0x01#8), (.rdLcr p, 0x00#8), (.rdMcr p, 0x00#8), (.rdLsr p, 0x60#8),
        (.rdMsr p, Config.resetMsrStatus ++ 0#4), (.rdScr p, Config.resetScr)],
      ∃ a, exec r.1 t = .next a ∧ a.result = some r.2) ∧
    (t.uart p).rxq = [] ∧ (t.uart p).fcrFe = false ∧ (t.uart p).threPending = false ∧ intOut (t.uart p) = false ∧
    t.fiqSerial = false

/-- The machine's reset state has the two port records and the serial bit that EV_RESET leaves (R170, R173). -/
def Obligations.ResetStateIsWhatResetLeaves : Prop :=
  ∀ s t : State, exec .evReset s = .next t →
    State.reset.com1 = t.com1 ∧ State.reset.com2 = t.com2 ∧ State.reset.fiqSerial = t.fiqSerial

/-! ## Interrupts -/

/-- R155: `IrqUpdate()` writes the OR of the two ports' outputs to the serial bit, at index `SERIAL_FIQ_BIT`, calls `updateirqs()`, and
changes nothing else; and it is the last thing every operation does, before it returns. -/
def Obligations.IrqUpdateDrivesTheSerialBit : Prop :=
  (∀ s : State,
    let level := !(iir s.com1)[0] || !(iir s.com2)[0]
    irqUpdate s = { s with fiqSerial := level, outputs := s.outputs ++ [.updateirqs Config.serialFiqBit level] }) ∧
  ∀ (i : Instr) (s t : State), exec i s = .next t → ∃ m, t = { irqUpdate m with result := t.result }

/-- A port's interrupt output is 1 exactly when an enabled source's condition holds (R151, R154). -/
def Obligations.InterruptOutputIsTheEnabledSources : Prop :=
  ∀ u : Uart, intOut u = true ↔
    (u.ier[2] = true ∧ (u.oe = true ∨ u.pe = true ∨ u.fe = true ∨ u.bi = true)) ∨
    (u.ier[0] = true ∧ 0 < u.rxq.length) ∨
    (u.ier[1] = true ∧ u.threPending = true) ∨
    (u.ier[3] = true ∧ u.msrDelta ≠ 0#4)

/-- After every operation, whatever the device did inside it, the serial bit is the OR of the two interrupt outputs (R36, R61,
R155). -/
def Obligations.SerialBitIsCurrentAfterEveryOperation : Prop :=
  ∀ (i : Instr) (s t : State), exec i s = .next t →
    t.fiqSerial = (intOut t.com1 || intOut t.com2) ∧
    ∃ before, t.outputs = before ++ [.updateirqs Config.serialFiqBit (intOut t.com1 || intOut t.com2)]

/-- What takes a pending condition away (R153, the column "cleared by"), over all operations and all nested device events: an error
bit (OE, PE, FE, BI), an LSR read; DR, an RBR read of the last byte, or an FCR write that changes the FIFO mode or resets the
receiver FIFO; the THRE latch, an IIR read that reports THRE, or an IER write that clears ETBEI; the delta bits, an MSR read; each of
them, reset. -/
def Obligations.PendingConditionsAreClearedOnlyByTheirRules : Prop :=
  ∀ (i : Instr) (s t : State) (p : PortId), exec i s = .next t →
    ((s.uart p).oe = true → (t.uart p).oe = false → i = .rdLsr p ∨ i = .evReset) ∧
    ((s.uart p).pe = true → (t.uart p).pe = false → i = .rdLsr p ∨ i = .evReset) ∧
    ((s.uart p).fe = true → (t.uart p).fe = false → i = .rdLsr p ∨ i = .evReset) ∧
    ((s.uart p).bi = true → (t.uart p).bi = false → i = .rdLsr p ∨ i = .evReset) ∧
    ((s.uart p).rxq ≠ [] → (t.uart p).rxq = [] →
      (i = .rdRbr p ∧ (s.uart p).rxq.length = 1) ∨
        (∃ b, i = .wrFcr p b ∧ (b[0] ≠ (s.uart p).fcrFe ∨ (b[0] = true ∧ b[1] = true))) ∨ i = .evReset) ∧
    ((s.uart p).threPending = true → (t.uart p).threPending = false →
      (i = .rdIir p ∧ (iir (s.uart p)).extractLsb' 0 4 = 0x2#4) ∨
        (∃ b, i = .wrIer p b ∧ (s.uart p).ier[1] = true ∧ b[1] = false) ∨ i = .evReset) ∧
    ((s.uart p).msrDelta ≠ 0#4 → (t.uart p).msrDelta = 0#4 → i = .rdMsr p ∨ i = .evReset)

/-- What sets a pending condition (R153, the column "set by"): its own operation, or for OE, DR and the delta bits a device event
nested in a THR or MCR write. -/
def Obligations.PendingConditionsAreSetOnlyByTheirRules : Prop :=
  ∀ (i : Instr) (s t : State) (p : PortId), exec i s = .next t →
    let nested (e : DeviceEvent) := (∃ q b, i = .wrThr q b ∨ i = .wrMcr q b) ∧ ∃ es later, s.reactions = es :: later ∧ e ∈ es
    ((s.uart p).oe = false → (t.uart p).oe = true → ∃ b, i = .evRx p b ∨ nested (.rx p b)) ∧
    ((s.uart p).rxq = [] → (t.uart p).rxq ≠ [] → ∃ b, i = .evRx p b ∨ nested (.rx p b)) ∧
    ((s.uart p).threPending = false → (t.uart p).threPending = true →
      (∃ b, i = .wrThr p b) ∨ (∃ b, i = .wrIer p b ∧ b[1] = true)) ∧
    ((s.uart p).msrDelta = 0#4 → (t.uart p).msrDelta ≠ 0#4 →
      (∃ st, i = .evMstat p st ∨ nested (.mstat p st)) ∨ (∃ b, i = .wrMcr p b ∧ b[4] = true)) ∧
    ((s.uart p).pe = false → (t.uart p).pe = false) ∧ ((s.uart p).fe = false → (t.uart p).fe = false) ∧
    ((s.uart p).bi = false → (t.uart p).bi = false)

/-! ## The whole machine -/

/-- The reset state meets the invariants of R36 and R37. -/
def Obligations.InvariantHoldsAtReset : Prop := State.reset.Inv

/-- Every step keeps the invariants (R22, R36, R37): each queue fits its capacity, PE, FE and BI are 0, and the serial bit is the OR
of the interrupt outputs. -/
def Obligations.StepKeepsTheInvariant : Prop :=
  ∀ s t : State, s.Inv → step s = .next t → t.Inv

/-- The two ports share no state (R2, R163): from two states that agree on port p and on the device's coming reactions, an operation
on port p leaves port p the same and returns the same, whatever the other port holds. -/
def Obligations.PortsShareNoState : Prop :=
  ∀ (i : Instr) (p : PortId) (s₁ s₂ t₁ t₂ : State),
    i.port? = some p → s₁.uart p = s₂.uart p → s₁.reactions = s₂.reactions →
    exec i s₁ = .next t₁ → exec i s₂ = .next t₂ →
      t₁.uart p = t₂.uart p ∧ t₁.result = t₂.result ∧ t₁.reactions = t₂.reactions

/-- An operation on port p reaches the other port only through a device event nested in it (R2, R60). -/
def Obligations.OtherPortIsUntouched : Prop :=
  ∀ (i : Instr) (p : PortId) (s t : State), i.port? = some p → exec i s = .next t →
    (∀ es later, s.reactions = es :: later → ∀ e ∈ es, e.instr.port? = some p) →
      t.uart p.other = s.uart p.other

/-- What reaches the serial buses (R101, R133, R172): a THR write puts out its byte, an MCR write its control lines, every other
operation, reset among them, nothing. -/
def Obligations.OnlyThrAndMcrWritesReachTheBus : Prop :=
  ∀ (i : Instr) (s t : State), exec i s = .next t →
    t.outputs.filter toBus = s.outputs.filter toBus ++
      (match i with
        | .wrThr p b => [.tx p b]
        | .wrMcr p b => [.ctrl p (b.extractLsb' 0 4)]
        | _ => [])

/-- The registers that configure a port change only by their own writes and by reset (R25, R26, R28, R29, R30, R33). -/
def Obligations.ConfigurationChangesOnlyByItsWrites : Prop :=
  ∀ (i : Instr) (s t : State) (p : PortId), exec i s = .next t → i ≠ .evReset →
    ((t.uart p).dll ≠ (s.uart p).dll → ∃ b, i = .wrDll p b) ∧
    ((t.uart p).dlm ≠ (s.uart p).dlm → ∃ b, i = .wrDlm p b) ∧
    ((t.uart p).ier ≠ (s.uart p).ier → ∃ b, i = .wrIer p b) ∧
    ((t.uart p).fcrFe ≠ (s.uart p).fcrFe → ∃ b, i = .wrFcr p b) ∧
    ((t.uart p).fcrDma ≠ (s.uart p).fcrDma → ∃ b, i = .wrFcr p b) ∧
    ((t.uart p).fcrTrig ≠ (s.uart p).fcrTrig → ∃ b, i = .wrFcr p b) ∧
    ((t.uart p).lcr ≠ (s.uart p).lcr → ∃ b, i = .wrLcr p b) ∧
    ((t.uart p).mcr ≠ (s.uart p).mcr → ∃ b, i = .wrMcr p b) ∧
    ((t.uart p).scr ≠ (s.uart p).scr → ∃ b, i = .wrScr p b)

/-- The FCR DMA and trigger fields cannot be observed (R28, R39 e, R166): two states that differ in nothing else take steps to states
that differ in nothing else, so no result, no output and no other field ever depends on them. -/
def Obligations.DmaAndTriggerAreUnobservable : Prop :=
  ∀ s₁ s₂ t₁ t₂ : State, s₁.hideDmaTrig = s₂.hideDmaTrig → step s₁ = .next t₁ → step s₂ = .next t₂ →
    t₁.hideDmaTrig = t₂.hideDmaTrig

/-- In loopback the status nibble is the control bits, whatever the device delivered inside the MCR write (R131, R133 c). -/
def Obligations.LoopbackOverridesTheDevice : Prop :=
  ∀ (p : PortId) (b : Byte) (s t : State), b[4] = true → exec (.wrMcr p b) s = .next t →
    (t.uart p).msrStatus[0] = b[1] ∧ (t.uart p).msrStatus[1] = b[0] ∧
    (t.uart p).msrStatus[2] = b[2] ∧ (t.uart p).msrStatus[3] = b[3]

/-- What a second read of the same register returns (R58, R100, R111, R122, R134): RBR the next byte, or the same byte again where
none is left; LSR without its error bits; MSR without its delta bits; IIR no longer THRE, and the same value where the first read did
not report THRE. The reads of DLL, DLM, IER, LCR, MCR and SCR answer the same twice and leave the port as it was. -/
def Obligations.SecondReadsDiffer : Prop :=
  ∀ (p : PortId) (s t t' : State),
    (exec (.rdRbr p) s = .next t → exec (.rdRbr p) t = .next t' →
      (∀ v w q, (s.uart p).rxq = v :: w :: q → t.result = some v ∧ t'.result = some w) ∧
      (∀ v, (s.uart p).rxq = [v] → t.result = some v ∧ t'.result = some v) ∧
      ((s.uart p).rxq = [] → t.result = some (s.uart p).rbrLast ∧ t'.result = some (s.uart p).rbrLast)) ∧
    (exec (.rdLsr p) s = .next t → exec (.rdLsr p) t = .next t' →
      t'.result = some (lsr (s.uart p) &&& 0xE1#8)) ∧
    (exec (.rdMsr p) s = .next t → exec (.rdMsr p) t = .next t' →
      t'.result = some (msr (s.uart p) &&& 0xF0#8)) ∧
    (exec (.rdIir p) s = .next t → exec (.rdIir p) t = .next t' →
      ∃ v, t'.result = some v ∧ v.extractLsb' 0 4 ≠ 0x2#4 ∧
        ((iir (s.uart p)).extractLsb' 0 4 ≠ 0x2#4 → v = iir (s.uart p))) ∧
    (∀ i ∈ [Instr.rdDll p, .rdDlm p, .rdIer p, .rdLcr p, .rdMcr p, .rdScr p],
      exec i s = .next t → exec i t = .next t' → t'.result = t.result ∧ t.uart p = s.uart p)

/-! ## The receive queue -/

/-- With the FIFO on and empty, a run of received bytes leaves the first 16 in arrival order, and OE is set exactly when there were more
(R22, R140). -/
def Obligations.FifoKeepsTheFirstSixteen : Prop :=
  ∀ (p : PortId) (bs : List Byte) (s : State), (s.uart p).fcrFe = true → (s.uart p).rxq = [] →
    ((runOps s (bs.map (fun b => Instr.evRx p b))).uart p).rxq = bs.take 16 ∧
    ((runOps s (bs.map (fun b => Instr.evRx p b))).uart p).oe = ((s.uart p).oe || decide (16 < bs.length)) ∧
    (runOps s (bs.map (fun b => Instr.evRx p b))).uart p.other = s.uart p.other

/-- With the FIFO off and the holding register empty, a run of received bytes leaves the last one, and OE is set exactly when there was
more than one (R22, R140). -/
def Obligations.HoldingRegisterKeepsTheLast : Prop :=
  ∀ (p : PortId) (bs : List Byte) (s : State), (s.uart p).fcrFe = false → (s.uart p).rxq = [] →
    ((runOps s (bs.map (fun b => Instr.evRx p b))).uart p).rxq = bs.getLast?.toList ∧
    ((runOps s (bs.map (fun b => Instr.evRx p b))).uart p).oe = ((s.uart p).oe || decide (1 < bs.length))

/-- Received bytes come out in arrival order and none is lost (R22, R100 b, R140): up to 16 bytes received into an empty FIFO are the
values of as many RBR reads, which leave it empty with the last of them as `rbr_last`. -/
def Obligations.ReceivedBytesAreReadInOrder : Prop :=
  ∀ (p : PortId) (bs : List Byte) (s : State), (s.uart p).fcrFe = true → (s.uart p).rxq = [] → bs.length ≤ 16 →
    let r := drain p bs.length (runOps s (bs.map (fun b => Instr.evRx p b)))
    r.1 = bs.map some ∧ (r.2.uart p).rxq = [] ∧ (r.2.uart p).rbrLast = bs.getLast?.getD (s.uart p).rbrLast ∧
      (r.2.uart p).oe = (s.uart p).oe

/-! ## The assembly syntax -/

/-- The lines of the assembly syntax (R80): a register name stands for its operation and needs the DLAB value it implies, a numeric
offset is always accepted and decodes by the sampled DLAB, a name that cannot be used in its direction is refused. -/
def Obligations.LinesAssembleToTheirOperations : Prop :=
  ∀ (p : PortId) (b : Byte) (s : State),
    let makes (l : Line) (i : Instr) : Prop := ∃ o, assemble l s = .ok o ∧ decodeOp o = .ok i
    let mismatched (l : Line) : Prop := assemble l s = .error .dlabMismatch
    ((s.uart p).lcr[7] = false →
      makes (.rd p (.named .rbr)) (.rdRbr p) ∧ makes (.rd p (.named .ier)) (.rdIer p) ∧
      makes (.wr p (.named .thr) b) (.wrThr p b) ∧ makes (.wr p (.named .ier) b) (.wrIer p b) ∧
      mismatched (.rd p (.named .dll)) ∧ mismatched (.rd p (.named .dlm)) ∧
      mismatched (.wr p (.named .dll) b) ∧ mismatched (.wr p (.named .dlm) b)) ∧
    ((s.uart p).lcr[7] = true →
      makes (.rd p (.named .dll)) (.rdDll p) ∧ makes (.rd p (.named .dlm)) (.rdDlm p) ∧
      makes (.wr p (.named .dll) b) (.wrDll p b) ∧ makes (.wr p (.named .dlm) b) (.wrDlm p b) ∧
      mismatched (.rd p (.named .rbr)) ∧ mismatched (.rd p (.named .ier)) ∧
      mismatched (.wr p (.named .thr) b) ∧ mismatched (.wr p (.named .ier) b)) ∧
    makes (.rd p (.named .iir)) (.rdIir p) ∧ makes (.rd p (.named .lcr)) (.rdLcr p) ∧
    makes (.rd p (.named .mcr)) (.rdMcr p) ∧ makes (.rd p (.named .lsr)) (.rdLsr p) ∧
    makes (.rd p (.named .msr)) (.rdMsr p) ∧ makes (.rd p (.named .scr)) (.rdScr p) ∧
    makes (.wr p (.named .fcr) b) (.wrFcr p b) ∧ makes (.wr p (.named .lcr) b) (.wrLcr p b) ∧
    makes (.wr p (.named .mcr) b) (.wrMcr p b) ∧ makes (.wr p (.named .lsr) b) (.wrLsr p b) ∧
    makes (.wr p (.named .msr) b) (.wrMsr p b) ∧ makes (.wr p (.named .scr) b) (.wrScr p b) ∧
    makes (.rx p b) (.evRx p b) ∧ makes (.ms p b) (.evMstat p b) ∧ makes .reset .evReset ∧
    (∀ off : Offset, makes (.rd p (.offset off.toNat)) (readAt p ((s.uart p).lcr[7]) off) ∧
      makes (.wr p (.offset off.toNat) b) (writeAt p ((s.uart p).lcr[7]) off b)) ∧
    assemble (.rd p (.named .thr)) s = .error .badRegister ∧ assemble (.rd p (.named .fcr)) s = .error .badRegister ∧
    assemble (.wr p (.named .rbr) b) s = .error .badRegister ∧ assemble (.wr p (.named .iir) b) s = .error .badRegister

/-- `SETDIV` programs the divisor and restores LCR, and emits nothing (R81). -/
def Obligations.SetDivProgramsTheDivisor : Prop :=
  ∀ (p : PortId) (d : BitVec 16) (l : Byte) (s : State), l[7] = false →
    (runLines s (setDiv p d l)).uart p = { s.uart p with dll := d.extractLsb' 0 8, dlm := d.extractLsb' 8 8, lcr := l } ∧
    (runLines s (setDiv p d l)).uart p.other = s.uart p.other ∧
    (runLines s (setDiv p d l)).outputs.filter toBus = s.outputs.filter toBus

/-- `POLLTX` reads LSR with THRE set and sends its byte, which arms the THRE latch (R81). -/
def Obligations.PollTxSendsTheByte : Prop :=
  ∀ (p : PortId) (b : Byte) (s : State), (s.uart p).lcr[7] = false →
    (runLines s (pollTx p b)).outputs.filter toBus = s.outputs.filter toBus ++ [.tx p b] ∧
    ((runLines s (pollTx p b)).uart p).threPending = true ∧
    ∃ t, exec (.rdLsr p) s = .next t ∧ ∃ v, t.result = some v ∧ v[5] = true ∧
      runLines s (pollTx p b) = runOps t [.wrThr p b]

/-- `ACKINT` takes away the source that IIR reports, and nothing else of the port (R81, R153): the error bits, the oldest received byte,
the THRE latch or the delta bits. With no source pending it changes nothing (log entry 14). -/
def Obligations.AckIntServesTheReportedSource : Prop :=
  ∀ (p : PortId) (s : State), (s.uart p).lcr[7] = false →
    let u := s.uart p
    let id := (iir u).extractLsb' 0 4
    let t := runLines s (ackInt p ++ ackIntRest p (iir u))
    (id = 0x6#4 → t.uart p = { u with oe := false, pe := false, fe := false, bi := false }) ∧
    (id = 0x4#4 → ∃ v q, u.rxq = v :: q ∧ t.uart p = { u with rxq := q, rbrLast := v } ∧ t.result = some v) ∧
    (id = 0x2#4 → t.uart p = { u with threPending := false }) ∧
    (id = 0x0#4 → t.uart p = { u with msrDelta := 0#4 }) ∧
    (id = 0x1#4 → t.uart p = u) ∧
    t.uart p.other = s.uart p.other ∧ t.outputs.filter toBus = s.outputs.filter toBus
end

