-- ==== Sys2Proof/Laws/State.lean ====
section
/-! SUPPORT. The small lemmas of the state: one per field per update, so that no later proof unfolds a record
update. -/

namespace Sys2Proof

@[simp] theorem PortId.other_other (p : PortId) : p.other.other = p := by cases p <;> rfl
@[simp] theorem PortId.other_ne (p : PortId) : p.other ≠ p := by cases p <;> decide
@[simp] theorem PortId.ne_other (p : PortId) : p ≠ p.other := by cases p <;> decide
theorem PortId.eq_or_other (p q : PortId) : q = p ∨ q = p.other := by cases p <;> cases q <;> decide

namespace Machine

@[simp] theorem State.uart_com1 (s : State) : s.uart .com1 = s.com1 := rfl
@[simp] theorem State.uart_com2 (s : State) : s.uart .com2 = s.com2 := rfl

/-! setUart -/

@[simp] theorem State.setUart_uart (s : State) (p : PortId) (u : Uart) : (s.setUart p u).uart p = u := by cases p <;> rfl
@[simp] theorem State.setUart_uart_other (s : State) (p : PortId) (u : Uart) :
    (s.setUart p u).uart p.other = s.uart p.other := by cases p <;> rfl
theorem State.setUart_uart_ne (s : State) {p q : PortId} (u : Uart) (h : q ≠ p) :
    (s.setUart p u).uart q = s.uart q := by cases p <;> cases q <;> first | rfl | exact absurd rfl h
@[simp] theorem State.setUart_fiqSerial (s : State) (p : PortId) (u : Uart) : (s.setUart p u).fiqSerial = s.fiqSerial := by
  cases p <;> rfl
@[simp] theorem State.setUart_calls (s : State) (p : PortId) (u : Uart) : (s.setUart p u).calls = s.calls := by
  cases p <;> rfl
@[simp] theorem State.setUart_reactions (s : State) (p : PortId) (u : Uart) : (s.setUart p u).reactions = s.reactions := by
  cases p <;> rfl
@[simp] theorem State.setUart_result (s : State) (p : PortId) (u : Uart) : (s.setUart p u).result = s.result := by
  cases p <;> rfl
@[simp] theorem State.setUart_outputs (s : State) (p : PortId) (u : Uart) : (s.setUart p u).outputs = s.outputs := by
  cases p <;> rfl
@[simp] theorem State.setUart_fresh (s : State) (p : PortId) (u : Uart) : (s.setUart p u).fresh = s.fresh := by
  cases p <;> rfl

/-! update -/

@[simp] theorem State.update_uart (s : State) (p : PortId) (f : Uart → Uart) : (s.update p f).uart p = f (s.uart p) := by
  simp [State.update]
@[simp] theorem State.update_uart_other (s : State) (p : PortId) (f : Uart → Uart) :
    (s.update p f).uart p.other = s.uart p.other := by simp [State.update]
theorem State.update_uart_ne (s : State) {p q : PortId} (f : Uart → Uart) (h : q ≠ p) :
    (s.update p f).uart q = s.uart q := State.setUart_uart_ne s _ h
@[simp] theorem State.update_fiqSerial (s : State) (p : PortId) (f : Uart → Uart) : (s.update p f).fiqSerial = s.fiqSerial := by
  simp [State.update]
@[simp] theorem State.update_calls (s : State) (p : PortId) (f : Uart → Uart) : (s.update p f).calls = s.calls := by
  simp [State.update]
@[simp] theorem State.update_reactions (s : State) (p : PortId) (f : Uart → Uart) : (s.update p f).reactions = s.reactions := by
  simp [State.update]
@[simp] theorem State.update_result (s : State) (p : PortId) (f : Uart → Uart) : (s.update p f).result = s.result := by
  simp [State.update]
@[simp] theorem State.update_outputs (s : State) (p : PortId) (f : Uart → Uart) : (s.update p f).outputs = s.outputs := by
  simp [State.update]
@[simp] theorem State.update_fresh (s : State) (p : PortId) (f : Uart → Uart) : (s.update p f).fresh = s.fresh := by
  simp [State.update]

/-! emit -/

@[simp] theorem State.emit_uart (s : State) (o : Output) (p : PortId) : (s.emit o).uart p = s.uart p := by cases p <;> rfl
@[simp] theorem State.emit_com1 (s : State) (o : Output) : (s.emit o).com1 = s.com1 := rfl
@[simp] theorem State.emit_com2 (s : State) (o : Output) : (s.emit o).com2 = s.com2 := rfl
@[simp] theorem State.emit_fiqSerial (s : State) (o : Output) : (s.emit o).fiqSerial = s.fiqSerial := rfl
@[simp] theorem State.emit_calls (s : State) (o : Output) : (s.emit o).calls = s.calls := rfl
@[simp] theorem State.emit_reactions (s : State) (o : Output) : (s.emit o).reactions = s.reactions := rfl
@[simp] theorem State.emit_result (s : State) (o : Output) : (s.emit o).result = s.result := rfl
@[simp] theorem State.emit_outputs (s : State) (o : Output) : (s.emit o).outputs = s.outputs ++ [o] := rfl
@[simp] theorem State.emit_fresh (s : State) (o : Output) : (s.emit o).fresh = s.fresh := rfl

/-! irqUpdate -/

@[simp] theorem irqUpdate_uart (s : State) (p : PortId) : (irqUpdate s).uart p = s.uart p := by cases p <;> rfl
@[simp] theorem irqUpdate_com1 (s : State) : (irqUpdate s).com1 = s.com1 := rfl
@[simp] theorem irqUpdate_com2 (s : State) : (irqUpdate s).com2 = s.com2 := rfl
@[simp] theorem irqUpdate_fiqSerial (s : State) : (irqUpdate s).fiqSerial = serialLevel s := rfl
@[simp] theorem irqUpdate_calls (s : State) : (irqUpdate s).calls = s.calls := rfl
@[simp] theorem irqUpdate_reactions (s : State) : (irqUpdate s).reactions = s.reactions := rfl
@[simp] theorem irqUpdate_result (s : State) : (irqUpdate s).result = s.result := rfl
@[simp] theorem irqUpdate_outputs (s : State) :
    (irqUpdate s).outputs = s.outputs ++ [.updateirqs Config.serialFiqBit (serialLevel s)] := rfl
@[simp] theorem irqUpdate_fresh (s : State) : (irqUpdate s).fresh = s.fresh := rfl
@[simp] theorem serialLevel_irqUpdate (s : State) : serialLevel (irqUpdate s) = serialLevel s := rfl

/-! finish -/

@[simp] theorem finish_uart (r : Option Byte) (s : State) (p : PortId) : (finish r s).uart p = s.uart p := by cases p <;> rfl
@[simp] theorem finish_com1 (r : Option Byte) (s : State) : (finish r s).com1 = s.com1 := rfl
@[simp] theorem finish_com2 (r : Option Byte) (s : State) : (finish r s).com2 = s.com2 := rfl
@[simp] theorem finish_fiqSerial (r : Option Byte) (s : State) : (finish r s).fiqSerial = serialLevel s := rfl
@[simp] theorem finish_calls (r : Option Byte) (s : State) : (finish r s).calls = s.calls := rfl
@[simp] theorem finish_reactions (r : Option Byte) (s : State) : (finish r s).reactions = s.reactions := rfl
@[simp] theorem finish_result (r : Option Byte) (s : State) : (finish r s).result = r := rfl
@[simp] theorem finish_outputs (r : Option Byte) (s : State) :
    (finish r s).outputs = s.outputs ++ [.updateirqs Config.serialFiqBit (serialLevel s)] := rfl
@[simp] theorem finish_fresh (r : Option Byte) (s : State) : (finish r s).fresh = s.fresh := rfl
@[simp] theorem serialLevel_finish (r : Option Byte) (s : State) : serialLevel (finish r s) = serialLevel s := rfl

/-! the fields outside the port records do not reach them -/

@[simp] theorem uart_with_result (s : State) (r : Option Byte) (p : PortId) :
    State.uart { s with result := r } p = s.uart p := by cases p <;> rfl
@[simp] theorem uart_with_reactions (s : State) (rs : List (List DeviceEvent)) (p : PortId) :
    State.uart { s with reactions := rs } p = s.uart p := by cases p <;> rfl
@[simp] theorem uart_with_calls (s : State) (cs : List Call) (p : PortId) :
    State.uart { s with calls := cs } p = s.uart p := by cases p <;> rfl
@[simp] theorem serialLevel_with_result (s : State) (r : Option Byte) :
    serialLevel { s with result := r } = serialLevel s := rfl

/-- Two states with the same port records have the same serial level. -/
theorem serialLevel_congr {s t : State} (h : ∀ p, s.uart p = t.uart p) : serialLevel s = serialLevel t := by
  have h1 := h .com1
  have h2 := h .com2
  simp only [State.uart_com1, State.uart_com2] at h1 h2
  simp [serialLevel, h1, h2]

end Machine
end Sys2Proof
end

