-- ==== Sys2Proof/Laws/Ops.lean ====
section
/-! SUPPORT. For each shared operation, what it can do, said once. -/

namespace Sys2Proof.Machine

/-! The receive path -/

/-- An RBR read with a byte waiting (R100). -/
theorem popRx_of_cons {u : Uart} {v : Byte} {q : List Byte} (h : u.rxq = v :: q) :
    popRx u = { u with rxq := q, rbrLast := v } ∧ rbrValue u = v := by
  simp [popRx, rbrValue, h]

/-- An RBR read with nothing waiting (R100 a). -/
theorem popRx_of_nil {u : Uart} (h : u.rxq = []) : popRx u = u ∧ rbrValue u = u.rbrLast := by
  simp [popRx, rbrValue, h]

/-- The three things a received byte can do (R140). -/
theorem pushRx_cases (b : Byte) (u : Uart) :
    (u.rxq.length < rxCap u ∧ pushRx b u = { u with rxq := u.rxq ++ [b] }) ∨
    (rxCap u ≤ u.rxq.length ∧ u.fcrFe = true ∧ pushRx b u = { u with oe := true }) ∨
    (rxCap u ≤ u.rxq.length ∧ u.fcrFe = false ∧ pushRx b u = { u with rxq := [b], oe := true }) := by
  unfold pushRx
  split
  case isTrue h => exact .inl ⟨h, rfl⟩
  case isFalse h =>
    split
    case isTrue hf => exact .inr (.inl ⟨Nat.le_of_not_lt h, hf, rfl⟩)
    case isFalse hf => exact .inr (.inr ⟨Nat.le_of_not_lt h, by simpa using hf, rfl⟩)

/-- A received byte changes no field but the queue and OE. -/
theorem pushRx_frame (b : Byte) (u : Uart) : ∃ q e, pushRx b u = { u with rxq := q, oe := e } := by
  rcases pushRx_cases b u with ⟨_, h⟩ | ⟨_, _, h⟩ | ⟨_, _, h⟩ <;> rw [h] <;> exact ⟨_, _, rfl⟩

/-- A received byte never takes OE away (R153). -/
theorem pushRx_keeps_oe (b : Byte) {u : Uart} (h : u.oe = true) : (pushRx b u).oe = true := by
  rcases pushRx_cases b u with ⟨_, e⟩ | ⟨_, _, e⟩ | ⟨_, _, e⟩ <;> simp [e, h]

/-- A received byte keeps the port's invariants (R37). -/
theorem pushRx_inv (b : Byte) {u : Uart} (h : u.Inv) : (pushRx b u).Inv := by
  obtain ⟨hl, hp, hf, hb⟩ := h
  rcases pushRx_cases b u with ⟨hlt, e⟩ | ⟨_, _, e⟩ | ⟨_, hfe, e⟩ <;> rw [e]
  · refine ⟨?_, hp, hf, hb⟩
    simpa [rxCap] using hlt
  · exact ⟨hl, hp, hf, hb⟩
  · exact ⟨by simp [rxCap, hfe], hp, hf, hb⟩

/-! StatusUpdate -/

/-- `StatusUpdate` touches the MSR nibbles only (R130). -/
theorem statusUpdate_frame (n : Nibble) (d : Bool) (u : Uart) :
    ∃ x, statusUpdate n d u = { u with msrDelta := x, msrStatus := n } := ⟨_, rfl⟩

/-- `StatusUpdate` never takes a delta bit away (R130). -/
theorem statusUpdate_keeps_delta (n : Nibble) (d : Bool) (u : Uart) (k : Nat) (h : u.msrDelta.getLsbD k = true) :
    (statusUpdate n d u).msrDelta.getLsbD k = true := by
  cases d <;> simp [statusUpdate, h]

/-! Device events, on their own and nested -/

/-- What a device event does to its own port. -/
def eventEffect : DeviceEvent → Uart → Uart
  | .rx _ b => pushRx b
  | .mstat _ st => statusUpdate (highNibble st) true

/-- The port a device event names. -/
def eventPort : DeviceEvent → PortId
  | .rx p _ => p
  | .mstat p _ => p

/-- A device event updates its own port and re-evaluates the interrupt, and that is all (R140, R141). -/
theorem deviceEvent_eq (s : State) (e : DeviceEvent) :
    deviceEvent s e = irqUpdate (s.update (eventPort e) (eventEffect e)) := by cases e <;> rfl

/-- A device event can change only the queue, OE and the MSR nibbles of its port (R140, R141). -/
theorem eventEffect_frame (e : DeviceEvent) (u : Uart) :
    ∃ q o d n, eventEffect e u = { u with rxq := q, oe := o, msrDelta := d, msrStatus := n } := by
  cases e with
  | rx p b =>
    obtain ⟨q, o, h⟩ := pushRx_frame b u
    exact ⟨q, o, u.msrDelta, u.msrStatus, by simp [eventEffect, h]⟩
  | mstat p st => exact ⟨_, _, _, _, rfl⟩

/-- A property of a port record that every device event keeps is kept by a sequence of them. -/
theorem deviceEvents_keep (P : Uart → Prop) (hp : ∀ e u, P u → P (eventEffect e u)) (es : List DeviceEvent) (s : State)
    (p : PortId) (h : P (s.uart p)) : P ((es.foldl deviceEvent s).uart p) := by
  induction es generalizing s with
  | nil => exact h
  | cons e es ih =>
    refine ih _ ?_
    rw [deviceEvent_eq, irqUpdate_uart]
    by_cases hq : p = eventPort e
    · subst hq
      rw [State.update_uart]
      exact hp e _ h
    · rw [State.update_uart_ne s _ hq]
      exact h

/-- A sequence of device events leaves the calls, the free-value counter, the result and the reactions alone. -/
theorem deviceEvents_surroundings (es : List DeviceEvent) (s : State) :
    (es.foldl deviceEvent s).calls = s.calls ∧ (es.foldl deviceEvent s).fresh = s.fresh ∧
      (es.foldl deviceEvent s).result = s.result ∧ (es.foldl deviceEvent s).reactions = s.reactions := by
  induction es generalizing s with
  | nil => exact ⟨rfl, rfl, rfl, rfl⟩
  | cons e es ih => simpa [deviceEvent_eq] using ih (deviceEvent s e)

/-- What an emit to the bus can do: put out `o`, then run one reaction's events, if one is left (R60). -/
theorem emitToBus_cases (o : Output) (s : State) :
    (s.reactions = [] ∧ emitToBus o s = s.emit o) ∨
    (∃ es later, s.reactions = es :: later ∧
      emitToBus o s = es.foldl deviceEvent { s.emit o with reactions := later }) := by
  cases h : s.reactions with
  | nil => exact .inl ⟨rfl, by simp [emitToBus, nestedEvents, h]⟩
  | cons es later => exact .inr ⟨es, later, rfl, by simp [emitToBus, nestedEvents, h]⟩

/-- A property of a port record that every device event keeps is kept by an emit to the bus. -/
theorem emitToBus_keep (P : Uart → Prop) (hp : ∀ e u, P u → P (eventEffect e u)) (o : Output) (s : State)
    (p : PortId) (h : P (s.uart p)) : P ((emitToBus o s).uart p) := by
  rcases emitToBus_cases o s with ⟨_, e⟩ | ⟨es, later, _, e⟩ <;> rw [e]
  · simpa using h
  · exact deviceEvents_keep P hp es _ p (by cases p <;> exact h)

/-- An emit to the bus leaves the calls and the free-value counter alone. -/
theorem emitToBus_surroundings (o : Output) (s : State) : SameSurroundings s (emitToBus o s) := by
  rcases emitToBus_cases o s with ⟨_, e⟩ | ⟨es, later, _, e⟩ <;> rw [e]
  · exact ⟨rfl, rfl⟩
  · obtain ⟨h1, h2, _, _⟩ := deviceEvents_surroundings es { s.emit o with reactions := later }
    exact ⟨h1, h2⟩

/-- A device event keeps the invariants of a port (R37). -/
theorem eventEffect_inv (e : DeviceEvent) (u : Uart) (h : u.Inv) : (eventEffect e u).Inv := by
  cases e with
  | rx p b => exact pushRx_inv b h
  | mstat p st => exact h

/-! The reset of a port -/

/-- Every field is set: nothing of the old record is left (R170). -/
theorem resetUart_eq (u : Uart) : resetUart u = Uart.reset := rfl

/-! The interrupt encoder -/

/-- The encoder is one of five codes, in the order of priority (R110, R151). -/
theorem iirId_cases (u : Uart) :
    (rlsHolds u = true ∧ iirId u = 0x6#8) ∨
    (rlsHolds u = false ∧ rdaHolds u = true ∧ iirId u = 0x4#8) ∨
    (rlsHolds u = false ∧ rdaHolds u = false ∧ threHolds u = true ∧ iirId u = 0x2#8) ∨
    (rlsHolds u = false ∧ rdaHolds u = false ∧ threHolds u = false ∧ modemHolds u = true ∧ iirId u = 0x0#8) ∨
    (rlsHolds u = false ∧ rdaHolds u = false ∧ threHolds u = false ∧ modemHolds u = false ∧ iirId u = 0x1#8) := by
  unfold iirId
  cases rlsHolds u <;> cases rdaHolds u <;> cases threHolds u <;> cases modemHolds u <;> simp

/-- THRE and TEMT are 1 and bit 7 is 0, whatever the record holds (R31, R37 a). -/
theorem lsr_constant_bits (u : Uart) :
    (lsr u)[5] = true ∧ (lsr u)[6] = true ∧ (lsr u)[7] = false := by
  unfold lsr
  cases u.bi <;> cases u.fe <;> cases u.pe <;> cases u.oe <;> cases dataReady u <;> decide

end Sys2Proof.Machine
end

