-- ==== Sys2Proof/Laws/Exec.lean ====
section
/-! SUPPORT. What one operation can do to each field of the state, said once over all operations, so that a proof about
every operation does not unfold the meanings again. -/

namespace Sys2Proof.Machine

/-- Port q's record after port p's is changed by `f`. -/
theorem State.update_uart_eq (s : State) (p q : PortId) (f : Uart → Uart) :
    (s.update p f).uart q = if q = p then f (s.uart q) else s.uart q := by
  by_cases h : q = p
  · subst h
    simp
  · simp [h, State.update_uart_ne s f h]

/-- Port q's record after an operation. -/
def uartAfter (i : Instr) (s : State) (q : PortId) : Uart :=
  let stored (p : PortId) (b : Byte) := s.update p (fun u => { u with mcr := mcrBits b })
  match i with
  | .rdRbr p => if q = p then popRx (s.uart q) else s.uart q
  | .wrThr p b =>
    if q = p then { (emitToBus (.tx p b) s).uart q with threPending := true } else (emitToBus (.tx p b) s).uart q
  | .rdDll _ => s.uart q
  | .wrDll p b => if q = p then { s.uart q with dll := b } else s.uart q
  | .rdIer _ => s.uart q
  | .wrIer p b => if q = p then writeIer b (s.uart q) else s.uart q
  | .rdDlm _ => s.uart q
  | .wrDlm p b => if q = p then { s.uart q with dlm := b } else s.uart q
  | .rdIir p => if q = p then ackIir (iir (s.uart q)) (s.uart q) else s.uart q
  | .wrFcr p b => if q = p then writeFcr b (s.uart q) else s.uart q
  | .rdLcr _ => s.uart q
  | .wrLcr p b => if q = p then { s.uart q with lcr := b } else s.uart q
  | .rdLsr p => if q = p then clearErrors (s.uart q) else s.uart q
  | .wrLsr _ _ => s.uart q
  | .rdScr _ => s.uart q
  | .wrScr p b => if q = p then { s.uart q with scr := b } else s.uart q
  | .rdMcr _ => s.uart q
  | .wrMcr p b =>
    if q = p then loopback b ((emitToBus (.ctrl p (lowNibble b)) (stored p b)).uart q)
    else (emitToBus (.ctrl p (lowNibble b)) (stored p b)).uart q
  | .rdMsr p => if q = p then { s.uart q with msrDelta := 0#4 } else s.uart q
  | .wrMsr _ _ => s.uart q
  | .evRx p b => if q = p then pushRx b (s.uart q) else s.uart q
  | .evMstat p st => if q = p then statusUpdate (highNibble st) true (s.uart q) else s.uart q
  | .evReset => Uart.reset

/-- What an operation leaves in each port's record. -/
theorem exec_uart {i : Instr} {s t : State} (h : exec i s = .next t) (q : PortId) : t.uart q = uartAfter i s q := by
  cases i <;> injection h with h <;> subst h <;> simp only [finish_uart, uart_with_result, uartAfter]
  case rdIir p => by_cases e : q = p <;> simp [State.update_uart_eq, e]
  case evRx p b => simp [receiveByte, State.update_uart_eq]
  case evMstat p st => simp [modemStatus, State.update_uart_eq]
  case evReset => cases q <;> rfl
  all_goals exact State.update_uart_eq _ _ _ _

/-- What an operation returns: a read its register, anything else nothing (R10, R53). -/
def resultAfter (i : Instr) (s : State) : Option Byte :=
  match i with
  | .rdRbr p => some (rbrValue (s.uart p))
  | .rdDll p => some (s.uart p).dll
  | .rdIer p => some ((s.uart p).ier.setWidth 8)
  | .rdDlm p => some (s.uart p).dlm
  | .rdIir p => some (iir (s.uart p))
  | .rdLcr p => some (s.uart p).lcr
  | .rdLsr p => some (lsr (s.uart p))
  | .rdScr p => some (s.uart p).scr
  | .rdMcr p => some ((s.uart p).mcr.setWidth 8)
  | .rdMsr p => some (msr (s.uart p))
  | .wrThr _ _ | .wrDll _ _ | .wrIer _ _ | .wrDlm _ _ | .wrFcr _ _ | .wrLcr _ _ | .wrLsr _ _ | .wrScr _ _ => none
  | .wrMcr _ _ | .wrMsr _ _ | .evRx _ _ | .evMstat _ _ | .evReset => none

/-- What an operation leaves in the result field. -/
theorem exec_result {i : Instr} {s t : State} (h : exec i s = .next t) : t.result = resultAfter i s := by
  cases i <;> injection h with h <;> subst h <;> simp [resultAfter]

/-- The device's coming reactions after an operation: only a THR or MCR write takes one (R60). -/
theorem exec_reactions {i : Instr} {s t : State} (h : exec i s = .next t) :
    t.reactions = s.reactions ∨
      (∃ p b, i = .wrThr p b ∧ t.reactions = (emitToBus (.tx p b) s).reactions) ∨
      (∃ p b, i = .wrMcr p b ∧ t.reactions =
        (emitToBus (.ctrl p (lowNibble b)) (s.update p (fun u => { u with mcr := mcrBits b }))).reactions) := by
  cases i <;> injection h with h <;> subst h
  case wrThr p b => exact .inr (.inl ⟨p, b, rfl, by simp⟩)
  case wrMcr p b => exact .inr (.inr ⟨p, b, rfl, by simp⟩)
  all_goals exact .inl (by simp [receiveByte, modemStatus])

/-- An operation leaves the pending calls and the free-value counter alone. -/
theorem exec_surroundings {i : Instr} {s t : State} (h : exec i s = .next t) : SameSurroundings s t := by
  cases i <;> injection h with h <;> subst h
  case wrThr p b => simpa [SameSurroundings] using emitToBus_surroundings (.tx p b) s
  case wrMcr p b => simpa [SameSurroundings] using
    emitToBus_surroundings (.ctrl p (lowNibble b)) (s.update p (fun u => { u with mcr := mcrBits b }))
  all_goals simp [SameSurroundings, receiveByte, modemStatus]

end Sys2Proof.Machine
end

