-- ==== Sys2Proof/Laws/Fetch.lean ====
section
/-! SUPPORT. What the address decode, the keys and the byte layout can do, said once. -/

namespace Sys2Proof

/-- The triple of an operation survives its byte layout (log entry 9). -/
theorem operationOfBytes_bytesOfOperation (o : Operation) : operationOfBytes (bytesOfOperation o) = .ok o := by
  obtain ⟨k, p, d⟩ := o
  have h : (k.setWidth 8).setWidth 7 = k := by simp
  cases p <;> simp [operationOfBytes, bytesOfOperation, portOfByte, byteOfPort, h]

/-- A host-access key has KIND 0 (R71). -/
theorem hostKey_kind : ∀ (w d : Bool) (off : Offset), (hostKey w d off).extractLsb' 5 2 = 0#2 := by decide

/-- A key with KIND 0 is the host key of its own fields (R71). -/
theorem hostKey_of_fields : ∀ k : BitVec 7, k.extractLsb' 5 2 = 0#2 → k = hostKey k[4] k[3] (k.setWidth 3) := by decide

/-- A key with KIND not 0 and bits 4:0 zero is an event key (R71). -/
theorem eventKey_of_fields : ∀ k : BitVec 7, k.extractLsb' 0 5 = 0#5 → k = eventKey (k.extractLsb' 5 2) := by decide

namespace Machine

/-- The I/O port as a number: `(addr >> 2) & 0x7FF` (R50). -/
theorem ioPort_toNat (a : Word) : (ioPort a).toNat = a.toNat / 4 % 0x800 := by
  simp [ioPort, Config.portShift, Config.portMask, BitVec.toNat_setWidth, BitVec.toNat_and, BitVec.toNat_ushiftRight,
    Nat.shiftRight_eq_div_pow]
  rw [show 2047 = 2 ^ 11 - 1 by rfl, Nat.and_two_pow_sub_one_eq_mod]
  omega

/-- The I/O port is address bits 12:2 (R50). -/
theorem ioPort_eq_extract (a : Word) : ioPort a = a.extractLsb' 2 11 := by
  apply BitVec.eq_of_toNat_eq
  rw [ioPort_toNat]
  simp [BitVec.extractLsb'_toNat, Nat.shiftRight_eq_div_pow]

/-- The ports of a UART's range select it, at their offset (R51). -/
theorem selectUart_base : ∀ (p : PortId) (off : Offset), selectUart (basePort p + off.setWidth 11) = some (p, off) := by
  intro p
  cases p <;> decide

/-- The host address of a register reaches that register (R50, R51). -/
theorem selectUart_hostAddr : ∀ (p : PortId) (off : Offset), selectUart (ioPort (hostAddr p off)) = some (p, off) := by
  intro p
  cases p <;> decide

end Machine
end Sys2Proof
end

