-- ==== Sys2Proof/Laws/PerInstr.lean ====
section
/-! SUPPORT. A fact about every operation as syntax: the key that the encoder writes for it is legal, not one of the
reserved keys (R77), whichever DLAB bit is sampled. -/

namespace Sys2Proof.Laws.KeyLegal

/-- The encoded key of `i` is legal. -/
def Statement (i : Instr) : Prop := ∀ dlab : Bool, (encodeOp dlab i).wellFormed = true

/-- Every host-access key is legal (R77). -/
theorem host (w d : Bool) (off : Offset) (p : PortId) (b : Byte) : (Operation.mk (hostKey w d off) p b).wellFormed = true := by
  have h : ∀ (w d : Bool) (off : Offset), (hostKey w d off).extractLsb' 5 2 = 0#2 := by decide
  simp [Operation.wellFormed, Operation.kind, h]

/-- Every event key is legal (R77). -/
theorem event (k : BitVec 2) (p : PortId) (b : Byte) : (Operation.mk (eventKey k) p b).wellFormed = true := by
  have h : ∀ k : BitVec 2, (eventKey k).extractLsb' 0 5 = 0#5 := by decide
  simp [Operation.wellFormed, h]

theorem rdRbr (p : PortId) : Statement (.rdRbr p) := fun _ => host _ _ _ _ _
theorem wrThr (p : PortId) (b : Byte) : Statement (.wrThr p b) := fun _ => host _ _ _ _ _
theorem rdDll (p : PortId) : Statement (.rdDll p) := fun _ => host _ _ _ _ _
theorem wrDll (p : PortId) (b : Byte) : Statement (.wrDll p b) := fun _ => host _ _ _ _ _
theorem rdIer (p : PortId) : Statement (.rdIer p) := fun _ => host _ _ _ _ _
theorem wrIer (p : PortId) (b : Byte) : Statement (.wrIer p b) := fun _ => host _ _ _ _ _
theorem rdDlm (p : PortId) : Statement (.rdDlm p) := fun _ => host _ _ _ _ _
theorem wrDlm (p : PortId) (b : Byte) : Statement (.wrDlm p b) := fun _ => host _ _ _ _ _
theorem rdIir (p : PortId) : Statement (.rdIir p) := fun _ => host _ _ _ _ _
theorem wrFcr (p : PortId) (b : Byte) : Statement (.wrFcr p b) := fun _ => host _ _ _ _ _
theorem rdLcr (p : PortId) : Statement (.rdLcr p) := fun _ => host _ _ _ _ _
theorem wrLcr (p : PortId) (b : Byte) : Statement (.wrLcr p b) := fun _ => host _ _ _ _ _
theorem rdLsr (p : PortId) : Statement (.rdLsr p) := fun _ => host _ _ _ _ _
theorem wrLsr (p : PortId) (b : Byte) : Statement (.wrLsr p b) := fun _ => host _ _ _ _ _
theorem rdScr (p : PortId) : Statement (.rdScr p) := fun _ => host _ _ _ _ _
theorem wrScr (p : PortId) (b : Byte) : Statement (.wrScr p b) := fun _ => host _ _ _ _ _
theorem rdMcr (p : PortId) : Statement (.rdMcr p) := fun _ => host _ _ _ _ _
theorem wrMcr (p : PortId) (b : Byte) : Statement (.wrMcr p b) := fun _ => host _ _ _ _ _
theorem rdMsr (p : PortId) : Statement (.rdMsr p) := fun _ => host _ _ _ _ _
theorem wrMsr (p : PortId) (b : Byte) : Statement (.wrMsr p b) := fun _ => host _ _ _ _ _
theorem evRx (p : PortId) (b : Byte) : Statement (.evRx p b) := fun _ => event _ _ _
theorem evMstat (p : PortId) (b : Byte) : Statement (.evMstat p b) := fun _ => event _ _ _
theorem evReset : Statement .evReset := fun _ => event _ _ _

end Sys2Proof.Laws.KeyLegal
end

