-- ==== Sys2Proof/Tests/Slice0.lean ====
section
/-! SUPPORT. The model's own tests: words written out from the spec's encoding (R71, R73, R74), the smoke test of WellFormed, one-step
tests whose expected values are the vectors of 95_test_vectors.md, and a witness for the hypotheses of each statement. -/

namespace Sys2Proof.Tests

open Sys2Proof Sys2Proof.Machine

/-! ## Decoding: KIND W DLAB OFF, written out bit by bit from R71 and R73 -/

theorem test_decode_rdRbr : decodeTableWord 8 0b0_00_0_0_000 = some (.rdRbr .com1) := by decide
theorem test_decode_wrThr : decodeTableWord 8 0b0_00_1_0_000 = some (.wrThr .com1 0x00) := by decide
theorem test_decode_rdDll : decodeTableWord 8 0b0_00_0_1_000 = some (.rdDll .com1) := by decide
theorem test_decode_wrDll : decodeTableWord 8 0b0_00_1_1_000 = some (.wrDll .com1 0x00) := by decide
theorem test_decode_rdIer : decodeTableWord 8 0b0_00_0_0_001 = some (.rdIer .com1) := by decide
theorem test_decode_wrIer : decodeTableWord 8 0b0_00_1_0_001 = some (.wrIer .com1 0x00) := by decide
theorem test_decode_rdDlm : decodeTableWord 8 0b0_00_0_1_001 = some (.rdDlm .com1) := by decide
theorem test_decode_wrDlm : decodeTableWord 8 0b0_00_1_1_001 = some (.wrDlm .com1 0x00) := by decide
theorem test_decode_rdIir : decodeTableWord 8 0b0_00_0_0_010 = some (.rdIir .com1) := by decide
theorem test_decode_wrFcr : decodeTableWord 8 0b0_00_1_0_010 = some (.wrFcr .com1 0x00) := by decide
theorem test_decode_rdLcr : decodeTableWord 8 0b0_00_0_0_011 = some (.rdLcr .com1) := by decide
theorem test_decode_wrLcr : decodeTableWord 8 0b0_00_1_0_011 = some (.wrLcr .com1 0x00) := by decide
theorem test_decode_rdLsr : decodeTableWord 8 0b0_00_0_0_101 = some (.rdLsr .com1) := by decide
theorem test_decode_wrLsr : decodeTableWord 8 0b0_00_1_0_101 = some (.wrLsr .com1 0x00) := by decide
theorem test_decode_rdScr : decodeTableWord 8 0b0_00_0_0_111 = some (.rdScr .com1) := by decide
theorem test_decode_wrScr : decodeTableWord 8 0b0_00_1_0_111 = some (.wrScr .com1 0x00) := by decide
theorem test_decode_rdMcr : decodeTableWord 8 0b0_00_0_0_100 = some (.rdMcr .com1) := by decide
theorem test_decode_wrMcr : decodeTableWord 8 0b0_00_1_0_100 = some (.wrMcr .com1 0x00) := by decide
theorem test_decode_rdMsr : decodeTableWord 8 0b0_00_0_0_110 = some (.rdMsr .com1) := by decide
theorem test_decode_wrMsr : decodeTableWord 8 0b0_00_1_0_110 = some (.wrMsr .com1 0x00) := by decide
theorem test_decode_evRx : decodeTableWord 8 0b0_01_0_0_000 = some (.evRx .com1 0x00) := by decide
theorem test_decode_evMstat : decodeTableWord 8 0b0_10_0_0_000 = some (.evMstat .com1 0x00) := by decide
theorem test_decode_evReset : decodeTableWord 8 0b0_11_0_0_000 = some .evReset := by decide

/-- P1 line 10 on COM2: key 0x13, p 1, data 0x83, the key with either DLAB bit (R73). -/
theorem test_decode_operands : decodeTableWord 24 0x830113 = some (.wrLcr .com2 0x83) ∧
    decodeTableWord 24 0x83011B = some (.wrLcr .com2 0x83) := by decide
/-- V10: a key of offset 2 with DLAB = 1 is RD_IIR. -/
theorem test_decode_dlab_ignored : decodeTableWord 8 0x0A = some (.rdIir .com1) := by decide
/-- R77's own examples, and a port and a key that do not exist. -/
theorem test_decode_refused : decodeTableWord 8 0x21 = none ∧ decodeTableWord 8 0x5F = none ∧
    decodeTableWord 24 0x000200 = none ∧ decodeTableWord 8 0x80 = none := by decide
/-- P4 line 5: WR COM2, THR, 0x41 is key 0x10, p 1, data 0x41. -/
theorem test_encode_wrThr : encode (.wrThr .com2 0x41) = [0x10, 0x01, 0x41] := by decide
theorem test_encode_rdDlm : encode (.rdDlm .com1) = [0x09, 0x00, 0x00] := by decide
theorem test_encode_evReset : encode .evReset = [0x60, 0x00, 0x00] := by decide
/-- The rows of the table are pairwise disjoint: no key is hit twice. -/
theorem test_rows_disjoint : ∀ k : BitVec 7, (opRows.filter (fun r => r.hits k)).length ≤ 1 := by decide

/-! ## WellFormed: an ill-formed term for each check -/

theorem test_wf_reserved_key : (Operation.mk 0x21#7 .com1 0).wellFormed = false := by decide
theorem test_wf_event_key : (Operation.mk 0x20#7 .com1 0).wellFormed = true := by decide
theorem test_wf_host_key : (Operation.mk 0x1F#7 .com1 0).wellFormed = true := by decide
/-- R101 d: with DLAB = 1 a THR write cannot arise. -/
theorem test_wf_thr_under_dlab : (Instr.wrThr .com1 0).arisesUnder true = false := by decide
theorem test_wf_dll_without_dlab : (Instr.rdDll .com1).arisesUnder false = false := by decide
theorem test_wf_read_thr : (Line.rd .com1 (.named .thr)).wellFormed = false := by decide
theorem test_wf_write_iir : (Line.wr .com1 (.named .iir) 0).wellFormed = false := by decide
theorem test_wf_read_offset_8 : (Line.rd .com1 (.offset 8)).wellFormed = false := by decide
theorem test_wf_write_offset_8 : (Line.wr .com1 (.offset 8) 0).wellFormed = false := by decide
theorem test_wf_read_offset_7 : (Line.rd .com1 (.offset 7)).wellFormed = true := by decide

/-! ## One operation on a small state -/

/-- A port after reset with every OPEN parameter 0, as 95_test_vectors.md takes them. -/
def u0 : Uart where
  rxq := []
  rbrLast := 0
  dll := 0
  dlm := 0
  ier := 0
  fcrFe := false
  fcrDma := false
  fcrTrig := 0
  lcr := 0
  mcr := 0
  oe := false
  pe := false
  fe := false
  bi := false
  msrStatus := 0
  msrDelta := 0
  scr := 0
  threPending := false

/-- A state with `u` as COM1 and nothing pending. -/
def st (u : Uart) : State where
  com1 := u
  com2 := u0
  fiqSerial := intOut u
  calls := []
  reactions := []
  result := none
  outputs := []
  fresh := 0

/-- `st u` with one pending call. -/
def pend (c : Call) (u : Uart) : State := { st u with calls := [c] }

/-- What `f` sees of the next state. -/
def after {α : Type} (r : Result) (f : State → α) : Option α :=
  match r with
  | .next t => some (f t)
  | .fault _ => none
  | .refused _ => none

/-- V12: RBR returns the byte, then DR falls. -/
theorem test_rdRbr : after (exec (.rdRbr .com1) (st { u0 with rxq := [0x42, 0x43], rbrLast := 1 }))
    (fun t => (t.result, t.com1.rxq, t.com1.rbrLast)) = some (some 0x42, [0x43], 0x42) := by decide
/-- V12, P2 line 42: with nothing waiting the last byte again. -/
theorem test_rdRbr_empty : after (exec (.rdRbr .com1) (st { u0 with rbrLast := 0x3F }))
    (fun t => (t.result, t.com1)) = some (some 0x3F, { u0 with rbrLast := 0x3F }) := by decide
/-- V13: TX(0, 0x55), and the latch is set though ETBEI is 0. -/
theorem test_wrThr : after (exec (.wrThr .com1 0x55) (st u0))
    (fun t => (t.outputs.filter toBus, t.com1.threPending, t.fiqSerial)) = some ([.tx .com1 0x55], true, false) := by decide
/-- V85: the device echoes inside the write; IIR then reports RDA. -/
theorem test_wrThr_nested : after
    (exec (.wrThr .com1 0x41) { st { u0 with ier := 0x3 } with reactions := [[.rx .com1 0x41]] })
    (fun t => (t.com1.rxq, t.com1.threPending, iir t.com1, t.reactions)) = some ([0x41], true, 0x04, []) := by decide
/-- V20: a DLL read returns DLL and leaves the received byte. -/
theorem test_rdDll : after (exec (.rdDll .com1) (st { u0 with rxq := [0x99], dll := 0x0C, lcr := 0x80 }))
    (fun t => (t.result, t.com1.rxq)) = some (some 0x0C, [0x99]) := by decide
/-- V15: no TX. -/
theorem test_wrDll : after (exec (.wrDll .com1 0x0C) (st { u0 with lcr := 0x80 }))
    (fun t => (t.com1.dll, t.outputs.filter toBus)) = some (0x0C, []) := by decide
/-- V19 -/
theorem test_rdDlm : after (exec (.rdDlm .com1) (st { u0 with dlm := 0x12, ier := 0x5 })) (fun t => t.result) =
    some (some 0x12) := by decide
/-- R107: IER is unchanged. -/
theorem test_wrDlm : after (exec (.wrDlm .com1 0xAB) (st { u0 with ier := 0x5 })) (fun t => (t.com1.dlm, t.com1.ier)) =
    some (0xAB, 0x5) := by decide
/-- V16 -/
theorem test_rdIer : after (exec (.rdIer .com1) (st { u0 with ier := 0xF })) (fun t => t.result) = some (some 0x0F) := by
  decide
/-- V16: bits 7:4 dropped, ETBEI rose. -/
theorem test_wrIer : after (exec (.wrIer .com1 0xFF) (st u0)) (fun t => (t.com1.ier, t.com1.threPending, iir t.com1)) =
    some (0xF, true, 0x02) := by decide
/-- V18: the same ETBEI does not re-arm; V17: clearing it clears the latch. -/
theorem test_wrIer_latch :
    after (exec (.wrIer .com1 0x02) (st { u0 with ier := 0x2 })) (fun t => t.com1.threPending) = some false ∧
    after (exec (.wrIer .com1 0x00) (st { u0 with ier := 0x2, threPending := true })) (fun t => t.com1.threPending) =
      some false := by decide
/-- V34: THRE reported, latch cleared, MODEM next. -/
theorem test_rdIir : after (exec (.rdIir .com1) (st { u0 with ier := 0xF, threPending := true, msrDelta := 0x1 }))
    (fun t => (t.result, t.com1.threPending, iir t.com1)) = some (some 0x02, false, 0x00) := by decide
/-- V38: RDA reported, latch kept; with the FIFO on the code is 0xC4. -/
theorem test_rdIir_rda : after
    (exec (.rdIir .com1) (st { u0 with ier := 0x3, threPending := true, rxq := [0x33], fcrFe := true }))
    (fun t => (t.result, t.com1.threPending)) = some (some 0xC4, true) := by decide
/-- P2 line 2, V43: entering FIFO mode empties the queue and stores trigger 3. -/
theorem test_wrFcr : after (exec (.wrFcr .com1 0xC7) (st { u0 with rxq := [0x77] }))
    (fun t => (t.com1.rxq, t.com1.fcrFe, t.com1.fcrDma, t.com1.fcrTrig)) = some ([], true, false, 3) := by decide
/-- V42: without bit 0 the resets are not programmed; V44: bit 0 alone keeps the data. -/
theorem test_wrFcr_keeps :
    after (exec (.wrFcr .com1 0x06) (st { u0 with rxq := [0x77] })) (fun t => t.com1.rxq) = some [0x77] ∧
    after (exec (.wrFcr .com1 0x01) (st { u0 with rxq := [0x11], fcrFe := true })) (fun t => t.com1.rxq) = some [0x11] := by
  decide
/-- V50 -/
theorem test_rdLcr : after (exec (.rdLcr .com1) (st { u0 with lcr := 0xFF })) (fun t => t.result) = some (some 0xFF) := by
  decide
theorem test_wrLcr : after (exec (.wrLcr .com1 0x83) (st u0)) (fun t => (t.com1.lcr, t.com2.lcr)) = some (0x83, 0x00) := by
  decide
/-- V52: 0x63, then OE is gone and DR stays. -/
theorem test_rdLsr : after (exec (.rdLsr .com1) (st { u0 with rxq := [2], oe := true, pe := true }))
    (fun t => (t.result, lsr t.com1)) = some (some 0x67, 0x61) := by decide
/-- V51 -/
theorem test_wrLsr : after (exec (.wrLsr .com1 0xFF) (st u0)) (fun t => (t.com1, lsr t.com1)) = some (u0, 0x60) := by decide
/-- V54 -/
theorem test_rdScr : after (exec (.rdScr .com1) (st { u0 with scr := 0x5A })) (fun t => t.result) = some (some 0x5A) := by
  decide
theorem test_wrScr : after (exec (.wrScr .com2 0xFF) (st u0)) (fun t => (t.com1.scr, t.com2.scr)) = some (0x00, 0xFF) := by
  decide
/-- V61 -/
theorem test_rdMcr : after (exec (.rdMcr .com1) (st { u0 with mcr := 0x1F })) (fun t => t.result) = some (some 0x1F) := by
  decide
/-- V61: CTRL(0, 0xF), MSR 0xFF; V63: MCR 0x12 after status 2 gives MSR 0x13. -/
theorem test_wrMcr :
    after (exec (.wrMcr .com1 0xFF) (st u0)) (fun t => (t.outputs.filter toBus, t.com1.mcr, msr t.com1)) =
      some ([.ctrl .com1 0xF], 0x1F, 0xFF) ∧
    after (exec (.wrMcr .com1 0x12) (st { u0 with msrStatus := 0x2 })) (fun t => msr t.com1) = some 0x13 := by decide
/-- V66: leaving loopback keeps the status. -/
theorem test_wrMcr_leaves_loopback : after (exec (.wrMcr .com1 0x08) (st { u0 with msrStatus := 0x8, mcr := 0x18 }))
    (fun t => msr t.com1) = some 0x80 := by decide
/-- V65: 0x8C, then the deltas are gone. -/
theorem test_rdMsr : after (exec (.rdMsr .com1) (st { u0 with msrStatus := 0x8, msrDelta := 0xC }))
    (fun t => (t.result, msr t.com1)) = some (some 0x8C, 0x80) := by decide
/-- V67 -/
theorem test_wrMsr : after (exec (.wrMsr .com1 0x0F) (st { u0 with msrDelta := 0x3 })) (fun t => msr t.com1) = some 0x03 := by
  decide
/-- V12: the holding register is overwritten, OE is set. -/
theorem test_evRx_overwrites : after (exec (.evRx .com1 0x42) (st { u0 with rxq := [0x41] }))
    (fun t => (t.com1.rxq, t.com1.oe)) = some ([0x42], true) := by decide
/-- V40: the 17th byte into a full FIFO is lost. -/
theorem test_evRx_full : after
    (exec (.evRx .com1 0x10) (st { u0 with fcrFe := true, rxq := [0, 1, 2, 3, 4, 5, 6, 7, 8, 9, 10, 11, 12, 13, 14, 15] }))
    (fun t => (t.com1.rxq, t.com1.oe)) = some ([0, 1, 2, 3, 4, 5, 6, 7, 8, 9, 10, 11, 12, 13, 14, 15], true) := by decide
/-- V70; V72: the change back is still reported. -/
theorem test_evMstat :
    after (exec (.evMstat .com1 0x30) (st u0)) (fun t => msr t.com1) = some 0x33 ∧
    after (exec (.evMstat .com1 0x0F) (st { u0 with msrStatus := 0x1, msrDelta := 0x1 })) (fun t => msr t.com1) = some 0x01 := by
  decide
/-- V84, from a state with everything set: no TX and no CTRL, the serial bit falls. -/
theorem test_evReset :
    let r := exec .evReset (st { u0 with ier := 0xF, lcr := 0x80, mcr := 0x1F, rxq := [1], oe := true, threPending := true })
    after r (fun t => (t.com1.ier, t.com1.lcr, t.com1.mcr, t.com1.rxq)) = some (0, 0, 0, []) ∧
    after r (fun t => (lsr t.com1, t.outputs.filter toBus, t.fiqSerial)) = some (0x60, [], false) := by decide
/-- S3, scenario C: RDA and the serial bit. -/
theorem test_evRx_raises_fiq : after (exec (.evRx .com1 0x4B) (st { u0 with ier := 0x1 }))
    (fun t => (lsr t.com1, iir t.com1, t.fiqSerial)) = some (0x61, 0x04, true) := by decide

/-! ## One step from a host call -/

/-- V2: address bits 1:0 are ignored, DLAB selects DLL. -/
theorem test_step_read_dll : after (step (pend (.superioRead 0xFE3) { u0 with lcr := 0x80, dll := 0x0C })) (fun t => (t.result, t.calls)) =
    some (some 0x0C, []) := by decide
/-- V3 -/
theorem test_step_write_lcr : after (step (pend (.superioWrite 0x03010FEC 0x83) u0)) (fun t => t.com1.lcr) = some 0x83 := by
  decide
/-- V4: COM2, offset 1. -/
theorem test_step_write_ier_com2 : after (step (pend (.superioWrite 0xBE4 0x0F) u0)) (fun t => (t.com2.ier, t.com1.ier)) =
    some (0xF, 0x0) := by decide
/-- V9: val bits 31:8 are dropped. -/
theorem test_step_write_scr : after (step (pend (.superioWrite 0xFFC 0x1234565A) u0)) (fun t => t.com1.scr) = some 0x5A := by
  decide
/-- V6, V7: ports of no UART leave both ports alone. -/
theorem test_step_foreign :
    after (step (pend (.superioRead 0xFDC) { u0 with rxq := [1] })) (fun t => (t.com1, t.outputs)) = some ({ u0 with rxq := [1] }, []) ∧
    after (step (pend (.superioWrite 0x1FE0 0x41) u0)) (fun t => (t.com1, t.outputs, t.result)) = some (u0, [], none) := by decide
/-- The reset state with the table's word 0x18 placed runs WR_DLL. -/
theorem test_fetch_word : after (step (State.reset.withFetchWord 24 0x0C0018)) (fun t => (t.com1.dll, t.com1.lcr, t.calls)) =
    some (0x0C, 0x80, []) := by decide
/-- R77: a reserved key is refused by name. -/
theorem test_reserved_refused : (match performOperation ⟨0x21#7, .com1, 0⟩ (st u0) with
    | .refused r => decide (r = .undecodable .reservedKey)
    | .next _ => false
    | .fault _ => false) = true := by decide
/-- R81: what ACKINT reads next, by the low nibble of IIR. -/
theorem test_ackInt : ackIntRest .com1 0xC6 = [.rd .com1 (.named .lsr)] ∧ ackIntRest .com1 0x04 = [.rd .com1 (.named .rbr)] ∧
    ackIntRest .com1 0x00 = [.rd .com1 (.named .msr)] ∧ ackIntRest .com1 0x02 = [] := by decide

/-! ## A witness for the hypotheses of each statement, one conjunct for each clause or boundary -/

/-- The lowest and the highest reserved key, and one between them. -/
theorem witness_ReservedKeysAreRefused : (operationOf (.deviceStatus .com2 0x0F) (st u0)).isSome = true ∧ ∀ k ∈ [0x21#7, 0x5F#7, 0x7F#7], k.extractLsb' 5 2 ≠ 0#2 ∧ k.extractLsb' 0 5 ≠ 0#5 := by
  decide

theorem witness_HostAccessKeysDecode : (0x00#7).extractLsb' 5 2 = 0#2 ∧ (0x1F#7).extractLsb' 5 2 = 0#2 := by decide

theorem witness_DecodeAndEncodeAgree : decodeOp ⟨0x10#7, .com2, 0x41⟩ = .ok (.wrThr .com2 0x41) ∧
    (Instr.wrThr .com2 0x41).port? = some .com2 ∧ decodeOp ⟨0x60#7, .com2, 0x41⟩ = .ok .evReset := by decide

theorem witness_IrqUpdateDrivesTheSerialBit : ∃ t, exec (.evRx .com1 0x41) (st { u0 with ier := 0x1 }) = .next t := ⟨_, rfl⟩

/-- A host access, a device event and a reset as the oldest call; and no call. -/
theorem witness_StepRunsTheDecodedOperation :
    (∀ c ∈ [Call.superioWrite 0xBE0 0x41, .deviceWriteData .com2 0x41, .superioReset],
      ∃ o i, (pend c u0).calls = c :: [] ∧ operationOf c (pend c u0) = some o ∧ decodeOp o = .ok i) ∧
    (st u0).calls = [] := by
  refine ⟨?_, rfl⟩
  intro c hc
  simp only [List.mem_cons, List.not_mem_nil, or_false] at hc
  rcases hc with rfl | rfl | rfl
  · exact ⟨⟨0x10#7, .com2, 0x41⟩, .wrThr .com2 0x41, rfl, by decide, by decide⟩
  · exact ⟨⟨0x20#7, .com2, 0x41⟩, .evRx .com2 0x41, rfl, by decide, by decide⟩
  · exact ⟨⟨0x60#7, .com1, 0x00⟩, .evReset, rfl, by decide, by decide⟩

/-- Offsets 0 and 7 of both ports, and the alias of V3. -/
theorem witness_HostAccessReachesItsRegister :
    (0xFE0#32).toNat / 4 % 0x800 = 0x3F8 + (0#3).toNat ∧ (0xFFC#32).toNat / 4 % 0x800 = 0x3F8 + (7#3).toNat ∧
    (0xBE0#32).toNat / 4 % 0x800 = 0x2F8 + (0#3).toNat ∧ (0xBFC#32).toNat / 4 % 0x800 = 0x2F8 + (7#3).toNat ∧
    (0x03010FEC#32).toNat / 4 % 0x800 = 0x3F8 + (3#3).toNat := by decide

theorem witness_HostAccessIgnoresUnusedBits :
    (0xFE0#32).extractLsb' 2 11 = (0xFFFFEFE3#32).extractLsb' 2 11 ∧ (0x1234565A#32).setWidth 8 = (0x5A#32).setWidth 8 := by
  decide

/-- The ports next to each range: 0x3F7, 0x400, 0x2F7 and 0x300. -/
theorem witness_ForeignAccessLeavesTheBlockAlone : ∀ a ∈ [0xFDC#32, 0x1000#32, 0xBDC#32, 0xC00#32],
    ∀ k < 8, a.toNat / 4 % 0x800 ≠ 0x3F8 + k ∧ a.toNat / 4 % 0x800 ≠ 0x2F8 + k := by
  intro a ha k hk
  simp only [List.mem_cons, List.not_mem_nil, or_false] at ha
  rcases ha with rfl | rfl | rfl | rfl <;> simp only [BitVec.toNat_ofNat] <;> omega

theorem witness_FetchWordRunsItsOperation : decodeTableWord 8 0x08 = some (.rdDll .com1) ∧
    decodeTableWord 24 0x830113 = some (.wrLcr .com2 0x83) := by decide

theorem witness_ReadRbrTakesTheOldestByte : ((st { u0 with rxq := [0x41] }).uart .com1).rxq = 0x41 :: [] ∧
    ((st u0).uart .com1).rxq = [] := by decide

theorem witness_DivisorNeverShowsThroughRbrOrIer :
    (∃ t, exec (.wrDll .com1 0xAA) (st u0) = .next t) ∧ (∃ t, exec (.wrDlm .com1 0xBB) (st u0) = .next t) ∧
    (∃ t, exec (.wrLcr .com1 0x80) (st u0) = .next t) := ⟨⟨_, rfl⟩, ⟨_, rfl⟩, ⟨_, rfl⟩⟩

/-- The premises of the five cases of R110: each of RLS, RDA, THRE and MODEM with every lower source pending too, and none. -/
theorem witness_IirIsThePriorityEncoder :
    let rls (u : Uart) : Bool := u.ier[2] && (u.oe || u.pe || u.fe || u.bi)
    let rda (u : Uart) : Bool := u.ier[0] && u.rxq != []
    let thre (u : Uart) : Bool := u.ier[1] && u.threPending
    let modem (u : Uart) : Bool := u.ier[3] && u.msrDelta != 0#4
    let all : Uart := { u0 with ier := 0xF, oe := true, rxq := [1], threPending := true, msrDelta := 0x8 }
    rls all ∧ (¬ rls { all with oe := false } ∧ rda { all with oe := false }) ∧
    (¬ rls { all with ier := 0xA } ∧ ¬ rda { all with ier := 0xA } ∧ thre { all with ier := 0xA }) ∧
    (¬ rls { all with ier := 0x8 } ∧ ¬ rda { all with ier := 0x8 } ∧ ¬ thre { all with ier := 0x8 } ∧ modem { all with ier := 0x8 }) ∧
    (¬ rls u0 ∧ ¬ rda u0 ∧ ¬ thre u0 ∧ ¬ modem u0) := by decide

theorem witness_WriteFcrProgramsTheFifo : (0xFE#8)[0] = false ∧ (0x01#8)[0] = true := by decide

/-- Lengths 0 and 1 without the FIFO, 15 and 16 with it. -/
theorem witness_ReceivedByteQueuesOrOverruns :
    ((st u0).uart .com1).rxq.length < (if ((st u0).uart .com1).fcrFe = true then 16 else 1) ∧
    (let s := st { u0 with fcrFe := true, rxq := List.replicate 15 0 }
     (s.uart .com1).rxq.length < (if (s.uart .com1).fcrFe = true then 16 else 1)) ∧
    (let s := st { u0 with fcrFe := true, rxq := List.replicate 16 0 }
     (s.uart .com1).fcrFe = true ∧ 16 ≤ (s.uart .com1).rxq.length) ∧
    (let s := st { u0 with rxq := [0] }
     (s.uart .com1).fcrFe = false ∧ 1 ≤ (s.uart .com1).rxq.length) := by decide

theorem witness_RegistersAfterReset : ∃ t, exec .evReset (st { u0 with ier := 0xF, rxq := [1] }) = .next t := ⟨_, rfl⟩

theorem witness_ResetStateIsWhatResetLeaves : ∃ t, exec .evReset (st u0) = .next t := ⟨_, rfl⟩

theorem witness_SerialBitIsCurrentAfterEveryOperation :
    ∃ t, exec (.wrThr .com1 0x41) { st { u0 with ier := 0x1 } with reactions := [[.rx .com1 0x41]] } = .next t := ⟨_, rfl⟩

theorem witness_PendingConditionsAreClearedOnlyByTheirRules :
    (∃ t, exec (.rdLsr .com1) (st { u0 with oe := true }) = .next t ∧ (t.uart .com1).oe = false) ∧
    (∃ t, exec (.rdLsr .com1) (st { u0 with pe := true, fe := true, bi := true }) = .next t ∧
      (t.uart .com1).pe = false ∧ (t.uart .com1).fe = false ∧ (t.uart .com1).bi = false) ∧
    (∃ t, exec (.rdRbr .com1) (st { u0 with rxq := [1] }) = .next t ∧ (t.uart .com1).rxq = []) ∧
    (∃ t, exec (.wrFcr .com1 0x03) (st { u0 with rxq := [1] }) = .next t ∧ (t.uart .com1).rxq = []) ∧
    (∃ t, exec (.rdIir .com1) (st { u0 with ier := 0x2, threPending := true }) = .next t ∧ (t.uart .com1).threPending = false) ∧
    (∃ t, exec (.wrIer .com1 0x0D) (st { u0 with ier := 0x2, threPending := true }) = .next t ∧
      (t.uart .com1).threPending = false) ∧
    (∃ t, exec (.rdMsr .com1) (st { u0 with msrDelta := 0x8 }) = .next t ∧ (t.uart .com1).msrDelta = 0#4) :=
  ⟨⟨_, rfl, rfl⟩, ⟨_, rfl, rfl, rfl, rfl⟩, ⟨_, rfl, rfl⟩, ⟨_, rfl, rfl⟩, ⟨_, rfl, rfl⟩, ⟨_, rfl, rfl⟩, ⟨_, rfl, rfl⟩⟩

/-- OE by a nested event, DR by an event, THRE by a write, the delta bits by loopback; PE, FE and BI stay 0. -/
theorem witness_PendingConditionsAreSetOnlyByTheirRules :
    (∃ t, exec (.wrThr .com2 0x41) { st { u0 with rxq := [1] } with reactions := [[.rx .com1 2]] } = .next t ∧
      (t.uart .com1).oe = true ∧ (t.uart .com1).pe = false) ∧
    (∃ t, exec (.evRx .com1 0x41) (st u0) = .next t ∧ (t.uart .com1).rxq ≠ []) ∧
    (∃ t, exec (.wrThr .com1 0x41) (st u0) = .next t ∧ (t.uart .com1).threPending = true) ∧
    (∃ t, exec (.wrIer .com1 0x02) (st u0) = .next t ∧ (t.uart .com1).threPending = true) ∧
    (∃ t, exec (.evMstat .com1 0x80) (st u0) = .next t ∧ (t.uart .com1).msrDelta ≠ 0#4) ∧
    (∃ t, exec (.wrMcr .com1 0x18) (st u0) = .next t ∧ (t.uart .com1).msrDelta ≠ 0#4 ∧ (t.uart .com1).fe = false ∧
      (t.uart .com1).bi = false) :=
  ⟨⟨_, rfl, by decide⟩, ⟨_, rfl, by decide⟩, ⟨_, rfl, by decide⟩, ⟨_, rfl, by decide⟩, ⟨_, rfl, by decide⟩, ⟨_, rfl, by decide⟩⟩

/-- The 16th byte arrives, with the serial bit rising. -/
theorem witness_StepKeepsTheInvariant :
    let s := pend (.deviceWriteData .com1 0x41) { u0 with ier := 0x4, fcrFe := true, rxq := List.replicate 15 0 }
    s.Inv ∧ ∃ t, step s = .next t := ⟨by decide, _, rfl⟩

theorem witness_PortsShareNoState :
    let s₁ := { st { u0 with ier := 0x1 } with reactions := [[.rx .com1 0x41]] }
    let s₂ := { s₁ with com2 := { u0 with ier := 0xF, rxq := [1], oe := true }, fiqSerial := true }
    (Instr.wrThr .com1 0x41).port? = some .com1 ∧ s₁.uart .com1 = s₂.uart .com1 ∧ s₁.reactions = s₂.reactions ∧
    (∃ t, exec (.wrThr .com1 0x41) s₁ = .next t) ∧ (∃ t, exec (.wrThr .com1 0x41) s₂ = .next t) :=
  ⟨rfl, rfl, rfl, ⟨_, rfl⟩, ⟨_, rfl⟩⟩

/-- A device that echoes on its own port. -/
theorem witness_OtherPortIsUntouched :
    let s := { st u0 with reactions := [[.rx .com1 0x41, .mstat .com1 0xF0]] }
    (Instr.wrMcr .com1 0x1F).port? = some .com1 ∧ (∃ t, exec (.wrMcr .com1 0x1F) s = .next t) ∧
    ∀ es later, s.reactions = es :: later → ∀ e ∈ es, e.instr.port? = some .com1 := by
  refine ⟨rfl, ⟨_, rfl⟩, ?_⟩
  intro es later h e he
  simp only [List.cons.injEq] at h
  obtain ⟨rfl, -⟩ := h
  simp only [List.mem_cons, List.not_mem_nil, or_false] at he
  rcases he with rfl | rfl <;> rfl

theorem witness_OnlyThrAndMcrWritesReachTheBus :
    (∃ t, exec (.wrThr .com1 0x55) (st u0) = .next t) ∧ (∃ t, exec (.wrMcr .com1 0xFF) (st u0) = .next t) ∧
    (∃ t, exec .evReset (st u0) = .next t) := ⟨⟨_, rfl⟩, ⟨_, rfl⟩, ⟨_, rfl⟩⟩

theorem witness_ConfigurationChangesOnlyByItsWrites :
    (∃ t, exec (.wrDll .com1 0xFF) (st u0) = .next t ∧ (t.uart .com1).dll ≠ u0.dll) ∧
    (∃ t, exec (.wrDlm .com1 0xFF) (st u0) = .next t ∧ (t.uart .com1).dlm ≠ u0.dlm) ∧
    (∃ t, exec (.wrIer .com1 0xFF) (st u0) = .next t ∧ (t.uart .com1).ier ≠ u0.ier) ∧
    (∃ t, exec (.wrFcr .com1 0xFF) (st u0) = .next t ∧ (t.uart .com1).fcrFe ≠ u0.fcrFe ∧ (t.uart .com1).fcrDma ≠ u0.fcrDma ∧
      (t.uart .com1).fcrTrig ≠ u0.fcrTrig) ∧
    (∃ t, exec (.wrLcr .com1 0xFF) (st u0) = .next t ∧ (t.uart .com1).lcr ≠ u0.lcr) ∧
    (∃ t, exec (.wrMcr .com1 0xFF) (st u0) = .next t ∧ (t.uart .com1).mcr ≠ u0.mcr) ∧
    (∃ t, exec (.wrScr .com1 0xFF) (st u0) = .next t ∧ (t.uart .com1).scr ≠ u0.scr) :=
  ⟨⟨_, rfl, by decide⟩, ⟨_, rfl, by decide⟩, ⟨_, rfl, by decide⟩, ⟨_, rfl, by decide⟩, ⟨_, rfl, by decide⟩, ⟨_, rfl, by decide⟩,
    ⟨_, rfl, by decide⟩⟩

/-- Two states that differ in the trigger level and the DMA bit, and in nothing else. -/
theorem witness_DmaAndTriggerAreUnobservable :
    let s₁ := pend (.superioRead 0xFE8) { u0 with fcrFe := true, fcrTrig := 3, rxq := [1] }
    let s₂ := pend (.superioRead 0xFE8) { u0 with fcrFe := true, fcrDma := true, rxq := [1] }
    s₁ ≠ s₂ ∧ s₁.hideDmaTrig = s₂.hideDmaTrig ∧ (∃ t, step s₁ = .next t) ∧ (∃ t, step s₂ = .next t) :=
  ⟨by decide, rfl, ⟨_, rfl⟩, ⟨_, rfl⟩⟩

theorem witness_LoopbackOverridesTheDevice : (0x10#8)[4] = true ∧
    ∃ t, exec (.wrMcr .com1 0x10) { st u0 with reactions := [[.mstat .com1 0xF0]] } = .next t := ⟨by decide, _, rfl⟩

theorem witness_SecondReadsDiffer :
    (∀ q ∈ [[], [1], [1, 2]], ∃ t t', exec (.rdRbr .com1) (st { u0 with rxq := q }) = .next t ∧ exec (.rdRbr .com1) t = .next t') ∧
    (∃ t t', exec (.rdLsr .com1) (st { u0 with oe := true }) = .next t ∧ exec (.rdLsr .com1) t = .next t') ∧
    (∃ t t', exec (.rdMsr .com1) (st { u0 with msrDelta := 0xF }) = .next t ∧ exec (.rdMsr .com1) t = .next t') ∧
    (∃ t t', exec (.rdIir .com1) (st { u0 with ier := 0x2, threPending := true }) = .next t ∧ exec (.rdIir .com1) t = .next t') ∧
    (iir { u0 with ier := 0x1, rxq := [1] }).extractLsb' 0 4 ≠ 0x2#4 ∧
    (∃ t t', exec (.rdScr .com1) (st u0) = .next t ∧ exec (.rdScr .com1) t = .next t') :=
  ⟨fun _ _ => ⟨_, _, rfl, rfl⟩, ⟨_, _, rfl, rfl⟩, ⟨_, _, rfl, rfl⟩, ⟨_, _, rfl, rfl⟩, by decide, ⟨_, _, rfl, rfl⟩⟩

theorem witness_FifoKeepsTheFirstSixteen :
    ((st { u0 with fcrFe := true }).uart .com1).fcrFe = true ∧ ((st { u0 with fcrFe := true }).uart .com1).rxq = [] := by decide

theorem witness_HoldingRegisterKeepsTheLast : ((st u0).uart .com1).fcrFe = false ∧ ((st u0).uart .com1).rxq = [] := by decide

theorem witness_ReceivedBytesAreReadInOrder :
    ((st { u0 with fcrFe := true }).uart .com1).fcrFe = true ∧ ((st { u0 with fcrFe := true }).uart .com1).rxq = [] ∧
    (List.replicate 16 0x41#8).length ≤ 16 := by decide

theorem witness_LinesAssembleToTheirOperations : ((st { u0 with lcr := 0x7F }).uart .com1).lcr[7] = false ∧
    ((st { u0 with lcr := 0x80 }).uart .com1).lcr[7] = true := by decide

theorem witness_SetDivProgramsTheDivisor : (0x7F#8)[7] = false := by decide

theorem witness_PollTxSendsTheByte : ((st { u0 with lcr := 0x7F }).uart .com1).lcr[7] = false := by decide

/-- Each of the five identifications, with every lower source pending too. -/
theorem witness_AckIntServesTheReportedSource :
    let all : Uart := { u0 with ier := 0xF, oe := true, rxq := [1], threPending := true, msrDelta := 0x8 }
    all.lcr[7] = false ∧ (iir all).extractLsb' 0 4 = 0x6#4 ∧ (iir { all with oe := false }).extractLsb' 0 4 = 0x4#4 ∧
    (iir { all with ier := 0xA }).extractLsb' 0 4 = 0x2#4 ∧ (iir { all with ier := 0x8 }).extractLsb' 0 4 = 0x0#4 ∧
    (iir u0).extractLsb' 0 4 = 0x1#4 := by decide

end Sys2Proof.Tests
end

section
/-! SUPPORT. The proofs of the statements of 00_scope.md: what a step runs, that it always completes, and that the two
ports share no state. First the layer of facts they rest on. -/

namespace Sys2Proof.Machine

/-! ## Steps: from the oldest call to the operation it makes -/

/-- With no call pending nothing happens (R161, R179). -/
theorem step_of_no_call {s : State} (h : s.calls = []) : step s = .next s := by simp [step, h]

/-- With a call pending, the step is that call, taken off (R6). -/
theorem step_of_call {s : State} {c : Call} {rest : List Call} (h : s.calls = c :: rest) :
    step s = performCall c { s with calls := rest } := by simp [step, h]

/-- The DLAB bit that a host access samples does not depend on the calls still to come (R72). -/
@[simp] theorem dlab_with_calls (s : State) (cs : List Call) (p : PortId) :
    State.dlab { s with calls := cs } p = s.dlab p := by simp [State.dlab]

/-- The operation that a call makes does not depend on the calls still to come. -/
@[simp] theorem operationOf_with_calls (c : Call) (s : State) (cs : List Call) :
    operationOf c { s with calls := cs } = operationOf c s := by
  cases c <;> simp [operationOf]

/-- A call whose operation decodes runs it. -/
theorem performCall_of_decode {c : Call} {s : State} {o : Operation} {i : Instr} (ho : operationOf c s = some o)
    (hi : decodeOp o = .ok i) : performCall c s = exec i s := by
  simp [performCall, performOperation, ho, hi]

/-- A call that makes no operation completes as an access to a port of neither UART (R54). -/
theorem performCall_of_foreign {c : Call} {s : State} (h : operationOf c s = none) :
    performCall c s = .next (foreignAccess c s) := by
  simp [performCall, h]

/-! ## Completion: no agent can make a reserved key, and every operation answers a next state -/

/-- Every key that is not reserved has a row of the table (R73, R74, R77). -/
theorem opRows_hit_of_wellFormed : ∀ k : BitVec 7,
    (k.extractLsb' 5 2 == 0#2 || k.extractLsb' 0 5 == 0#5) = true → (opRows.find? (fun r => r.hits k)).isSome = true := by
  decide

/-- The decoder accepts every operation whose key is not reserved (R77). -/
theorem decodeOp_of_wellFormed {o : Operation} (h : o.wellFormed = true) : ∃ i, decodeOp o = .ok i := by
  obtain ⟨r, hr⟩ := Option.isSome_iff_exists.mp (opRows_hit_of_wellFormed o.key h)
  exact ⟨r.make o.p o.data, by simp [decodeOp, hr]⟩

/-- No agent's call makes a reserved key (R75, R77). -/
theorem operationOf_wellFormed {c : Call} {s : State} {o : Operation} (h : operationOf c s = some o) :
    o.wellFormed = true := by
  cases c
  case superioRead | superioWrite =>
    simp only [operationOf] at h
    split at h
    · exact Option.some.inj h ▸ Laws.KeyLegal.host ..
    · cases h
  case deviceWriteData | deviceStatus | superioReset => exact Option.some.inj h ▸ Laws.KeyLegal.event ..

/-- Every operation, on every state and operand, answers a next state (R150). -/
theorem exec_completes (i : Instr) (s : State) : ∃ t, exec i s = .next t := by
  cases i <;> exact ⟨_, rfl⟩

/-- Every call answers a next state, whether or not it reaches the block (R6, R54). -/
theorem performCall_completes (c : Call) (s : State) : ∃ t, performCall c s = .next t := by
  cases ho : operationOf c s with
  | none => exact ⟨_, performCall_of_foreign ho⟩
  | some o =>
    obtain ⟨i, hi⟩ := decodeOp_of_wellFormed (operationOf_wellFormed ho)
    rw [performCall_of_decode ho hi]
    exact exec_completes i s

/-! ## Nested device events, seen from one port

An emit to the bus acts on each port's record separately: the reaction's events that name the port are applied to its record
in their order, and the other events do nothing to it (R60). -/

/-- What a sequence of device events does to port p's record. -/
def eventsAt (p : PortId) (es : List DeviceEvent) (u : Uart) : Uart :=
  es.foldl (fun v e => if eventPort e = p then eventEffect e v else v) u

/-- What the device's next reaction does to port p's record, when `rs` are the reactions to come (R60). -/
def reactionAt (p : PortId) (rs : List (List DeviceEvent)) (u : Uart) : Uart := eventsAt p (rs.headD []) u

/-- Events that all name other ports leave the record alone. -/
theorem eventsAt_of_elsewhere {p : PortId} {es : List DeviceEvent} (h : ∀ e ∈ es, eventPort e ≠ p) (u : Uart) :
    eventsAt p es u = u := by
  induction es with
  | nil => rfl
  | cons e es ih =>
    obtain ⟨he, hes⟩ := List.forall_mem_cons.mp h
    simpa [eventsAt, he] using ih hes

/-- A sequence of device events leaves in port p's record what `eventsAt` says, whatever the rest of the state holds. -/
theorem deviceEvents_uart (es : List DeviceEvent) (s : State) (p : PortId) :
    (es.foldl deviceEvent s).uart p = eventsAt p es (s.uart p) := by
  induction es generalizing s with
  | nil => rfl
  | cons e es ih =>
    rw [List.foldl_cons, ih, deviceEvent_eq, irqUpdate_uart, State.update_uart_eq]
    simp only [eventsAt, List.foldl_cons, eq_comm]

/-- An emit to the bus leaves in port p's record what `reactionAt` says (R60). -/
theorem emitToBus_uart (o : Output) (s : State) (p : PortId) :
    (emitToBus o s).uart p = reactionAt p s.reactions (s.uart p) := by
  rcases emitToBus_cases o s with ⟨hr, e⟩ | ⟨es, later, hr, e⟩ <;> rw [e, hr]
  · exact State.emit_uart s o p
  · rw [deviceEvents_uart, uart_with_reactions, State.emit_uart]
    rfl

/-- An emit to the bus takes the next reaction off (R60). -/
theorem emitToBus_reactions (o : Output) (s : State) : (emitToBus o s).reactions = s.reactions.tail := by
  rcases emitToBus_cases o s with ⟨hr, e⟩ | ⟨es, later, hr, e⟩ <;> rw [e, hr]
  · exact hr
  · obtain ⟨_, _, _, hreact⟩ := deviceEvents_surroundings es { s.emit o with reactions := later }
    exact hreact

/-! ## Operations, seen from one port -/

/-- The device's reactions still to come after an operation: a THR or MCR write takes one off (R60). -/
def reactionsAfter (i : Instr) (rs : List (List DeviceEvent)) : List (List DeviceEvent) :=
  match i with
  | .wrThr _ _ | .wrMcr _ _ => rs.tail
  | _ => rs

/-- What an operation leaves of the coming reactions. -/
theorem exec_reactions_eq {i : Instr} {s t : State} (h : exec i s = .next t) :
    t.reactions = reactionsAfter i s.reactions := by
  cases i <;> injection h with h <;> subst h
  case wrThr | wrMcr => simp [reactionsAfter, emitToBus_reactions]
  all_goals simp [reactionsAfter, receiveByte, modemStatus]

/-- Port q's record after an operation depends on that record and on the coming reactions, and on nothing else. -/
theorem uartAfter_congr (i : Instr) {s₁ s₂ : State} {q : PortId} (hu : s₁.uart q = s₂.uart q)
    (hr : s₁.reactions = s₂.reactions) : uartAfter i s₁ q = uartAfter i s₂ q := by
  cases i
  case wrThr p b => simp only [uartAfter, emitToBus_uart, hu, hr]
  case wrMcr p b => simp only [uartAfter, emitToBus_uart, State.update_uart_eq, State.update_reactions, hu, hr]
  all_goals simp only [uartAfter, hu]

/-- What an operation returns depends on the record of the port it names, and on nothing else. -/
theorem resultAfter_congr {i : Instr} {p : PortId} {s₁ s₂ : State} (hp : i.port? = some p)
    (hu : s₁.uart p = s₂.uart p) : resultAfter i s₁ = resultAfter i s₂ := by
  cases i <;> cases hp <;> simp only [resultAfter, hu]

/-- On the port it does not name, an operation does what the device's next reaction does there, or nothing. -/
theorem uartAfter_other {i : Instr} {p : PortId} (hp : i.port? = some p) (s : State) :
    uartAfter i s p.other = reactionAt p.other s.reactions (s.uart p.other) ∨ uartAfter i s p.other = s.uart p.other := by
  cases i <;> cases hp
  case wrThr | wrMcr => exact .inl (by simp [uartAfter, emitToBus_uart])
  all_goals exact .inr (by simp [uartAfter])

/-- The port that a device event's operation names. -/
theorem deviceEvent_port (e : DeviceEvent) : e.instr.port? = some (eventPort e) := by cases e <;> rfl

/-- A reaction whose events all name port p leaves the other port alone. -/
theorem reactionAt_other_of_own {p : PortId} {rs : List (List DeviceEvent)}
    (h : ∀ es later, rs = es :: later → ∀ e ∈ es, e.instr.port? = some p) (u : Uart) : reactionAt p.other rs u = u := by
  cases rs with
  | nil => rfl
  | cons es later =>
    refine eventsAt_of_elsewhere (fun e he => ?_) u
    have hport : eventPort e = p := Option.some.inj ((deviceEvent_port e).symm.trans (h es later rfl e he))
    exact hport ▸ PortId.ne_other _

/-! ## The statements -/

/-- Settles O40: an operation's effect on port p is a function of port p's record and of the coming reactions. -/
theorem portsShareNoState : Obligations.PortsShareNoState := by
  intro i p s₁ s₂ t₁ t₂ hp hu hr h₁ h₂
  refine ⟨?_, ?_, ?_⟩
  · rw [exec_uart h₁, exec_uart h₂, uartAfter_congr i hu hr]
  · rw [exec_result h₁, exec_result h₂, resultAfter_congr hp hu]
  · rw [exec_reactions_eq h₁, exec_reactions_eq h₂, hr]

/-- Settles O6: with a call pending, the key it makes is never reserved, so it decodes, and every operation completes. -/
theorem everyStepCompletes : Obligations.EveryStepCompletes := by
  intro s
  cases h : s.calls with
  | nil => exact ⟨s, step_of_no_call h⟩
  | cons c rest =>
    rw [step_of_call h]
    exact performCall_completes c _

/-- Settles O41: what an operation does to the port it does not name is the next reaction's part there, which is nothing
when every event of it names port p. -/
theorem otherPortIsUntouched : Obligations.OtherPortIsUntouched := by
  intro i p s t hp h hown
  rw [exec_uart h]
  rcases uartAfter_other hp s with e | e <;> rw [e]
  exact reactionAt_other_of_own hown _

/-- Settles O5: taking the call off changes nothing that its operation triple is made of. -/
theorem stepRunsTheDecodedOperation : Obligations.StepRunsTheDecodedOperation := by
  refine ⟨fun s c rest o i hc ho hi => ?_, fun s h => step_of_no_call h⟩
  rw [step_of_call hc]
  exact performCall_of_decode ((operationOf_with_calls c s rest).trans ho) hi

end Sys2Proof.Machine
end

section
/-! SUPPORT. The proofs of the statements of 10_state.md: the invariants, the registers that only configure, the fields
that nothing reads, and the receive queue. First the layer of facts they rest on. -/

namespace Sys2Proof.Machine

/-! ## What a step can do -/

/-- A completed call ran the operation it decodes to, or was an access to a port of neither UART (R53, R54). -/
theorem performCall_cases {c : Call} {s t : State} (h : performCall c s = .next t) :
    (∃ o i, operationOf c s = some o ∧ decodeOp o = .ok i ∧ exec i s = .next t) ∨
    (operationOf c s = none ∧ t = foreignAccess c s) := by
  cases ho : operationOf c s with
  | none =>
    rw [performCall_of_foreign ho] at h
    cases h
    exact .inr ⟨rfl, rfl⟩
  | some o =>
    obtain ⟨i, hi⟩ := decodeOp_of_wellFormed (operationOf_wellFormed ho)
    exact .inl ⟨o, i, rfl, hi, performCall_of_decode ho hi ▸ h⟩

/-- A step does nothing, or takes the oldest call off and runs the operation it makes, or answers it as an access to a
port of neither UART (R6, R54, R161). -/
theorem step_cases {s t : State} (h : step s = .next t) :
    (s.calls = [] ∧ t = s) ∨
    (∃ c rest, s.calls = c :: rest ∧
      ((∃ i, exec i { s with calls := rest } = .next t) ∨ t = foreignAccess c { s with calls := rest })) := by
  cases hc : s.calls with
  | nil =>
    rw [step_of_no_call hc] at h
    cases h
    exact .inl ⟨rfl, rfl⟩
  | cons c rest =>
    rw [step_of_call hc] at h
    rcases performCall_cases h with ⟨o, i, -, -, hi⟩ | ⟨-, hf⟩
    · exact .inr ⟨c, rest, rfl, .inl ⟨i, hi⟩⟩
    · exact .inr ⟨c, rest, rfl, .inr hf⟩

/-- An access to a port of neither UART sets the result and the free-value counter, and nothing else (R54). -/
theorem foreignAccess_frame (c : Call) (s : State) :
    ∃ r n, foreignAccess c s = { s with result := r, fresh := n } := by
  cases c <;> exact ⟨_, _, rfl⟩

/-- Every operation ends with the interrupt re-evaluation; only the result is set after it (R155). -/
theorem exec_ends_with_irqUpdate {i : Instr} {s t : State} (h : exec i s = .next t) :
    ∃ m, t = { irqUpdate m with result := t.result } := by
  cases i <;> injection h with h <;> subst h <;> exact ⟨_, rfl⟩

/-- After an operation the serial bit is current (R36). -/
theorem exec_fiqCurrent {i : Instr} {s t : State} (h : exec i s = .next t) : t.FiqCurrent := by
  obtain ⟨m, hm⟩ := exec_ends_with_irqUpdate h
  rw [hm]
  rfl

/-- The last thing an operation puts out is the serial bit at its new level (R155). -/
theorem exec_last_output {i : Instr} {s t : State} (h : exec i s = .next t) :
    ∃ before, t.outputs = before ++ [irqOutput t] := by
  obtain ⟨m, hm⟩ := exec_ends_with_irqUpdate h
  rw [hm]
  exact ⟨m.outputs, rfl⟩

/-! ## The invariant of one port -/

/-- A port record after reset meets the invariants (R170). -/
theorem Uart.reset_inv : Uart.reset.Inv := ⟨Nat.zero_le _, rfl, rfl, rfl⟩

/-- An RBR read takes at most a byte off the queue. -/
theorem popRx_inv {u : Uart} (h : u.Inv) : (popRx u).Inv := by
  obtain ⟨hl, herr⟩ := h
  cases hq : u.rxq with
  | nil => rw [(popRx_of_nil hq).1]; exact ⟨hl, herr⟩
  | cons v q =>
    rw [(popRx_of_cons hq).1]
    refine ⟨?_, herr⟩
    rw [hq] at hl
    exact Nat.le_of_succ_le hl

/-- An IIR read touches the THRE latch only (R111). -/
theorem ackIir_inv (v : Byte) {u : Uart} (h : u.Inv) : (ackIir v u).Inv := by
  unfold ackIir
  split <;> exact h

/-- An FCR write empties the queue, or leaves both it and the FIFO mode as they are (R112). -/
theorem writeFcr_queue (b : Byte) (u : Uart) :
    (writeFcr b u).rxq = [] ∨ ((writeFcr b u).rxq = u.rxq ∧ (writeFcr b u).fcrFe = u.fcrFe) := by
  cases hon : b[0] <;> cases hfe : u.fcrFe <;> cases hclear : b[1] <;> simp [writeFcr, hon, hfe, hclear]

/-- An FCR write keeps the queue within the capacity of the new mode (R37 c). -/
theorem writeFcr_inv (b : Byte) {u : Uart} (h : u.Inv) : (writeFcr b u).Inv := by
  obtain ⟨hl, herr⟩ := h
  refine ⟨?_, by unfold writeFcr; split <;> exact herr⟩
  rcases writeFcr_queue b u with hq | ⟨hq, hfe⟩
  · simp [hq]
  · simpa [hq, rxCap, hfe] using hl

/-- An LSR read clears the error bits (R122). -/
theorem clearErrors_inv {u : Uart} (h : u.Inv) : (clearErrors u).Inv := ⟨h.1, rfl, rfl, rfl⟩

/-- The loopback touches the MSR nibbles only (R133). -/
theorem loopback_inv (b : Byte) {u : Uart} (h : u.Inv) : (loopback b u).Inv := by
  unfold loopback
  split <;> exact h

/-- An emit to the bus keeps each port's invariants, whatever the device does inside it (R60). -/
theorem emitToBus_inv (o : Output) {s : State} {q : PortId} (h : (s.uart q).Inv) : ((emitToBus o s).uart q).Inv :=
  emitToBus_keep Uart.Inv eventEffect_inv o s q h

/-- Both records that a port can be left with meet the invariants. -/
theorem Uart.inv_ite {c : Prop} [Decidable c] {u v : Uart} (hu : u.Inv) (hv : v.Inv) : (if c then u else v).Inv := by
  split
  · exact hu
  · exact hv

/-- A port's invariants hold after an operation when they hold before it (R37). -/
theorem uartAfter_inv (i : Instr) {s : State} {q : PortId} (h : (s.uart q).Inv) : (uartAfter i s q).Inv := by
  cases i
  case rdDll | rdIer | rdDlm | rdLcr | wrLsr | rdScr | rdMcr | wrMsr => exact h
  case wrDll | wrIer | wrDlm | wrLcr | wrScr | rdMsr | evMstat => exact Uart.inv_ite h h
  case rdRbr => exact Uart.inv_ite (popRx_inv h) h
  case rdIir => exact Uart.inv_ite (ackIir_inv _ h) h
  case wrFcr => exact Uart.inv_ite (writeFcr_inv _ h) h
  case rdLsr => exact Uart.inv_ite (clearErrors_inv h) h
  case evRx => exact Uart.inv_ite (pushRx_inv _ h) h
  case wrThr => exact Uart.inv_ite (emitToBus_inv _ h) (emitToBus_inv _ h)
  case wrMcr p b =>
    have hstored : ((s.update p (fun u => { u with mcr := mcrBits b })).uart q).Inv := by
      rw [State.update_uart_eq]
      exact Uart.inv_ite h h
    exact Uart.inv_ite (loopback_inv _ (emitToBus_inv _ hstored)) (emitToBus_inv _ hstored)
  case evReset => exact Uart.reset_inv

/-- An operation keeps the invariants of both ports. -/
theorem exec_portsInv {i : Instr} {s t : State} (h : exec i s = .next t) (hs : s.PortsInv) : t.PortsInv := by
  have hport (q : PortId) (hq : (s.uart q).Inv) : (t.uart q).Inv := exec_uart h q ▸ uartAfter_inv i hq
  obtain ⟨h1, h2⟩ := hs
  exact ⟨hport .com1 h1, hport .com2 h2⟩

/-- Settles O39: an operation keeps each port's invariants and ends with a current serial bit; any other step changes
neither. -/
theorem stepKeepsTheInvariant : Obligations.StepKeepsTheInvariant := by
  intro s t hs h
  rcases step_cases h with ⟨-, rfl⟩ | ⟨c, rest, -, ⟨i, hi⟩ | rfl⟩
  · exact hs
  · exact ⟨exec_portsInv hi hs.1, exec_fiqCurrent hi⟩
  · obtain ⟨r, n, e⟩ := foreignAccess_frame c { s with calls := rest }
    rw [e]
    exact hs

/-! ## The fields that nothing reads -/

/-- The record of a port in a state with the two fields blanked out. -/
@[simp] theorem hideDmaTrig_uart (s : State) (p : PortId) : s.hideDmaTrig.uart p = (s.uart p).hideDmaTrig := by
  cases p <;> rfl
@[simp] theorem hideDmaTrig_reactions (s : State) : s.hideDmaTrig.reactions = s.reactions := rfl

/-- Blanking the two fields out a second time changes nothing. -/
@[simp] theorem Uart.hideDmaTrig_idem (u : Uart) : u.hideDmaTrig.hideDmaTrig = u.hideDmaTrig := rfl

/-- The encoder does not read the two fields (R110). -/
@[simp] theorem iir_hideDmaTrig (u : Uart) : iir u.hideDmaTrig = iir u := rfl

/-! What the block does commutes with blanking them out; an FCR write, which stores them, does so up to what it stores. -/

theorem pushRx_hideDmaTrig (b : Byte) (u : Uart) : pushRx b u.hideDmaTrig = (pushRx b u).hideDmaTrig := by
  rw [pushRx, pushRx, apply_ite Uart.hideDmaTrig, apply_ite Uart.hideDmaTrig]
  rfl

theorem eventEffect_hideDmaTrig (e : DeviceEvent) (u : Uart) :
    eventEffect e u.hideDmaTrig = (eventEffect e u).hideDmaTrig := by
  cases e with
  | rx p b => exact pushRx_hideDmaTrig b u
  | mstat p st => rfl

theorem popRx_hideDmaTrig (u : Uart) : popRx u.hideDmaTrig = (popRx u).hideDmaTrig := by
  cases hq : u.rxq with
  | nil => rw [(popRx_of_nil hq).1, (popRx_of_nil (u := u.hideDmaTrig) hq).1]
  | cons v q =>
    rw [(popRx_of_cons hq).1, (popRx_of_cons (u := u.hideDmaTrig) hq).1]
    rfl

theorem ackIir_hideDmaTrig (v : Byte) (u : Uart) : ackIir v u.hideDmaTrig = (ackIir v u).hideDmaTrig := by
  rw [ackIir, ackIir, apply_ite Uart.hideDmaTrig]
  rfl

theorem loopback_hideDmaTrig (b : Byte) (u : Uart) : loopback b u.hideDmaTrig = (loopback b u).hideDmaTrig := by
  rw [loopback, loopback, apply_ite Uart.hideDmaTrig]
  rfl

theorem writeFcr_hideDmaTrig (b : Byte) (u : Uart) :
    (writeFcr b u.hideDmaTrig).hideDmaTrig = (writeFcr b u).hideDmaTrig := by
  rw [writeFcr, writeFcr, apply_ite Uart.hideDmaTrig, apply_ite Uart.hideDmaTrig]
  rfl

/-- A change of a port record that commutes with the blanking does so in the state. -/
theorem update_hideDmaTrig (s : State) (p : PortId) {f : Uart → Uart}
    (hf : ∀ u, f u.hideDmaTrig = (f u).hideDmaTrig) : s.hideDmaTrig.update p f = (s.update p f).hideDmaTrig := by
  cases p <;> simp [State.update, State.setUart, State.hideDmaTrig, hf]

theorem deviceEvents_hideDmaTrig (es : List DeviceEvent) (s : State) :
    es.foldl deviceEvent s.hideDmaTrig = (es.foldl deviceEvent s).hideDmaTrig := by
  induction es generalizing s with
  | nil => rfl
  | cons e es ih =>
    have he : deviceEvent s.hideDmaTrig e = (deviceEvent s e).hideDmaTrig := by
      rw [deviceEvent_eq, deviceEvent_eq, update_hideDmaTrig s _ (eventEffect_hideDmaTrig e)]
      rfl
    rw [List.foldl_cons, List.foldl_cons, he, ih]

theorem emitToBus_hideDmaTrig (o : Output) (s : State) :
    emitToBus o s.hideDmaTrig = (emitToBus o s).hideDmaTrig := by
  cases hr : s.reactions with
  | nil => simp only [emitToBus, nestedEvents, State.emit_reactions, hideDmaTrig_reactions, hr]; rfl
  | cons es later =>
    simp only [emitToBus, nestedEvents, State.emit_reactions, hideDmaTrig_reactions, hr]
    exact deviceEvents_hideDmaTrig es { s.emit o with reactions := later }

/-- The end of an operation, after a change of the port that leaves the same but for the two fields. -/
theorem finish_update_hideDmaTrig (r : Option Byte) (s : State) (p : PortId) {f : Uart → Uart}
    (hf : ∀ u, (f u.hideDmaTrig).hideDmaTrig = (f u).hideDmaTrig) :
    (finish r (s.hideDmaTrig.update p f)).hideDmaTrig = (finish r (s.update p f)).hideDmaTrig := by
  have hupdate : (s.hideDmaTrig.update p f).hideDmaTrig = (s.update p f).hideDmaTrig := by
    cases p <;> simp [State.update, State.setUart, State.hideDmaTrig, hf]
  exact congrArg (finish r) hupdate

/-- From a state and from the same with the two fields blanked out, an operation leaves the same but for them. -/
theorem exec_hideDmaTrig {i : Instr} {s t t' : State} (h : exec i s = .next t) (h' : exec i s.hideDmaTrig = .next t') :
    t'.hideDmaTrig = t.hideDmaTrig := by
  cases i <;> injection h with h <;> injection h' with h' <;> subst h h'
  case rdDll | rdIer | rdDlm | rdLcr | rdScr | rdMcr => rw [hideDmaTrig_uart]; rfl
  case wrLsr | wrMsr => rfl
  case wrDll | wrIer | wrDlm | wrLcr | wrScr => exact finish_update_hideDmaTrig _ s _ fun u => rfl
  case wrFcr p b => exact finish_update_hideDmaTrig _ s p (writeFcr_hideDmaTrig b)
  case rdRbr p =>
    rw [hideDmaTrig_uart]
    exact finish_update_hideDmaTrig _ s p fun u => by rw [popRx_hideDmaTrig]; rfl
  case rdIir p =>
    rw [hideDmaTrig_uart]
    exact finish_update_hideDmaTrig _ s p fun u => by rw [iir_hideDmaTrig, ackIir_hideDmaTrig]; rfl
  case rdLsr | rdMsr =>
    rw [hideDmaTrig_uart]
    exact finish_update_hideDmaTrig _ s _ fun u => rfl
  case evRx p b =>
    rw [receiveByte, update_hideDmaTrig s p (pushRx_hideDmaTrig b)]
    rfl
  case evMstat p st => exact finish_update_hideDmaTrig none s p fun u => rfl
  case wrThr p b =>
    rw [emitToBus_hideDmaTrig]
    exact finish_update_hideDmaTrig _ _ p fun u => rfl
  case wrMcr p b =>
    have hstore := update_hideDmaTrig s p (f := fun u => { u with mcr := mcrBits b }) fun u => rfl
    rw [hstore, emitToBus_hideDmaTrig]
    exact finish_update_hideDmaTrig _ _ p fun u => by rw [loopback_hideDmaTrig]; rfl
  case evReset => rfl

/-- The DLAB bit, and with it the operation that a call makes, does not rest on the two fields. -/
theorem operationOf_hideDmaTrig (c : Call) (s : State) : operationOf c s.hideDmaTrig = operationOf c s := by
  have hdlab (p : PortId) : s.hideDmaTrig.dlab p = s.dlab p := by
    rw [State.dlab, hideDmaTrig_uart]
    rfl
  cases c <;> simp [operationOf, hdlab]

theorem performCall_hideDmaTrig {c : Call} {s t t' : State} (h : performCall c s = .next t)
    (h' : performCall c s.hideDmaTrig = .next t') : t'.hideDmaTrig = t.hideDmaTrig := by
  rcases performCall_cases h with ⟨o, i, ho, hi, he⟩ | ⟨hnone, rfl⟩
  · rw [performCall_of_decode ((operationOf_hideDmaTrig c s).trans ho) hi] at h'
    exact exec_hideDmaTrig he h'
  · rw [performCall_of_foreign ((operationOf_hideDmaTrig c s).trans hnone)] at h'
    cases h'
    cases c <;> rfl

/-- From a state and from the same with the two fields blanked out, a step leaves the same but for them. -/
theorem step_hideDmaTrig {s t t' : State} (h : step s = .next t) (h' : step s.hideDmaTrig = .next t') :
    t'.hideDmaTrig = t.hideDmaTrig := by
  cases hc : s.calls with
  | nil =>
    rw [step_of_no_call hc] at h
    rw [step_of_no_call (s := s.hideDmaTrig) hc] at h'
    cases h
    cases h'
    rfl
  | cons c rest =>
    rw [step_of_call hc] at h
    rw [step_of_call (s := s.hideDmaTrig) hc] at h'
    exact performCall_hideDmaTrig h h'

/-- Settles O44: both steps leave what the step from the common blanked-out state leaves. -/
theorem dmaAndTriggerAreUnobservable : Obligations.DmaAndTriggerAreUnobservable := by
  intro s₁ s₂ t₁ t₂ hs h₁ h₂
  obtain ⟨t, ht⟩ := everyStepCompletes s₁.hideDmaTrig
  calc t₁.hideDmaTrig = t.hideDmaTrig := (step_hideDmaTrig h₁ ht).symm
    _ = t₂.hideDmaTrig := step_hideDmaTrig h₂ (hs ▸ ht)

/-! ## The fields that configure a port -/

/-- The fields of a port record that configure the port (R25, R26, R28, R29, R30, R33). -/
structure PortConfig where
  dll : Byte
  dlm : Byte
  ier : Nibble
  fcrFe : Bool
  fcrDma : Bool
  fcrTrig : BitVec 2
  lcr : Byte
  mcr : BitVec 5
  scr : Byte

/-- The configuration that a port record holds. -/
def Uart.config (u : Uart) : PortConfig where
  dll := u.dll
  dlm := u.dlm
  ier := u.ier
  fcrFe := u.fcrFe
  fcrDma := u.fcrDma
  fcrTrig := u.fcrTrig
  lcr := u.lcr
  mcr := u.mcr
  scr := u.scr

/-- What an operation makes of port q's configuration. -/
def configAfter (i : Instr) (q : PortId) (c : PortConfig) : PortConfig :=
  match i with
  | .wrDll p b => if q = p then { c with dll := b } else c
  | .wrDlm p b => if q = p then { c with dlm := b } else c
  | .wrIer p b => if q = p then { c with ier := lowNibble b } else c
  | .wrFcr p b =>
    if q = p then
      { c with
        fcrFe := b[0]
        fcrDma := if b[0] then b[3] else c.fcrDma
        fcrTrig := if b[0] then fcrTrigBits b else c.fcrTrig }
    else c
  | .wrLcr p b => if q = p then { c with lcr := b } else c
  | .wrMcr p b => if q = p then { c with mcr := mcrBits b } else c
  | .wrScr p b => if q = p then { c with scr := b } else c
  | .evReset => Uart.reset.config
  | _ => c

theorem config_popRx (u : Uart) : (popRx u).config = u.config := by
  cases hq : u.rxq with
  | nil => rw [(popRx_of_nil hq).1]
  | cons v q => rw [(popRx_of_cons hq).1]; rfl

theorem config_pushRx (b : Byte) (u : Uart) : (pushRx b u).config = u.config := by
  obtain ⟨q, o, h⟩ := pushRx_frame b u
  rw [h]
  rfl

theorem config_ackIir (v : Byte) (u : Uart) : (ackIir v u).config = u.config := by
  unfold ackIir
  split <;> rfl

theorem config_loopback (b : Byte) (u : Uart) : (loopback b u).config = u.config := by
  unfold loopback
  split <;> rfl

theorem config_writeFcr (b : Byte) (u : Uart) : (writeFcr b u).config =
    { u.config with
      fcrFe := b[0]
      fcrDma := if b[0] then b[3] else u.config.fcrDma
      fcrTrig := if b[0] then fcrTrigBits b else u.config.fcrTrig } := by
  cases hon : b[0] <;> simp [writeFcr, Uart.config, hon]

/-- A device event configures nothing, nested in an emit or not (R60). -/
theorem config_emitToBus (o : Output) (s : State) (q : PortId) : ((emitToBus o s).uart q).config = (s.uart q).config := by
  refine emitToBus_keep (fun u => u.config = (s.uart q).config) (fun e u hu => ?_) o s q rfl
  obtain ⟨_, _, _, _, h⟩ := eventEffect_frame e u
  rw [h]
  exact hu

/-- Port q's configuration after an operation. -/
theorem exec_config {i : Instr} {s t : State} (h : exec i s = .next t) (q : PortId) :
    (t.uart q).config = configAfter i q (s.uart q).config := by
  rw [exec_uart h]
  cases i <;> simp only [uartAfter, configAfter, apply_ite Uart.config]
  case rdRbr => simp only [config_popRx, ite_self]
  case rdIir => simp only [config_ackIir, ite_self]
  case evRx => simp only [config_pushRx, ite_self]
  case wrFcr => simp only [config_writeFcr]
  case rdLsr | rdMsr | evMstat => exact ite_self _
  case wrThr p b =>
    have hlatch (u : Uart) : ({ u with threPending := true } : Uart).config = u.config := rfl
    simp only [hlatch, config_emitToBus, ite_self]
  case wrMcr p b =>
    simp only [config_loopback, config_emitToBus, ite_self, State.update_uart_eq, apply_ite Uart.config]
    rfl
  all_goals rfl

/-- Settles O43: the operation that changes a field of the configuration is read off `configAfter`. -/
theorem configurationChangesOnlyByItsWrites : Obligations.ConfigurationChangesOnlyByItsWrites := by
  intro i s t p h hreset
  change
    ((t.uart p).config.dll ≠ _ → _) ∧ ((t.uart p).config.dlm ≠ _ → _) ∧ ((t.uart p).config.ier ≠ _ → _) ∧
    ((t.uart p).config.fcrFe ≠ _ → _) ∧ ((t.uart p).config.fcrDma ≠ _ → _) ∧ ((t.uart p).config.fcrTrig ≠ _ → _) ∧
    ((t.uart p).config.lcr ≠ _ → _) ∧ ((t.uart p).config.mcr ≠ _ → _) ∧ ((t.uart p).config.scr ≠ _ → _)
  rw [exec_config h]
  cases i <;> simp only [configAfter]
  case wrDll q b | wrDlm q b | wrIer q b | wrLcr q b | wrMcr q b | wrScr q b | wrFcr q b =>
    by_cases hq : p = q <;> simp [hq, Uart.config]
  case evReset => exact absurd rfl hreset
  all_goals simp [Uart.config]

/-! ## The receive queue -/

/-- A list of operations whose first completes goes on in the state it leaves. -/
theorem runOps_cons {i : Instr} {s t : State} (h : exec i s = .next t) (is : List Instr) :
    runOps s (i :: is) = runOps t is := by simp [runOps, h]

/-- A run of received bytes pushes them on the queue of its port, oldest first, and leaves the other port alone. -/
theorem runOps_evRx_uart (p q : PortId) (bs : List Byte) (s : State) :
    (runOps s (bs.map (fun b => Instr.evRx p b))).uart q =
      if q = p then bs.foldl (fun u b => pushRx b u) (s.uart q) else s.uart q := by
  induction bs generalizing s with
  | nil => exact (ite_self _).symm
  | cons b bs ih =>
    obtain ⟨t, ht⟩ := exec_completes (.evRx p b) s
    rw [List.map_cons, runOps_cons ht, ih, exec_uart ht]
    by_cases hq : q = p <;> simp [uartAfter, hq]

/-- A port record with another queue and another OE: what received bytes can leave of it (`pushRx_frame`). -/
def Uart.withQueue (u : Uart) (q : List Byte) (e : Bool) : Uart := { u with rxq := q, oe := e }

/-- The three things a received byte can do, by the room in the queue and the FIFO mode (R140). -/
theorem pushRx_withQueue (b : Byte) (u : Uart) (q : List Byte) (e : Bool) :
    pushRx b (u.withQueue q e) =
      if q.length < rxCap u then u.withQueue (q ++ [b]) e
      else if u.fcrFe then u.withQueue q true else u.withQueue [b] true := rfl

/-- With the FIFO on, bytes fill the queue up to 16, and those that find it full are lost with OE (R140). -/
theorem pushAll_of_fifo_on {u : Uart} (hfe : u.fcrFe = true) (bs q : List Byte) (e : Bool) (hl : q.length ≤ 16) :
    bs.foldl (fun u b => pushRx b u) (u.withQueue q e) =
      u.withQueue ((q ++ bs).take 16) (e || decide (16 < (q ++ bs).length)) := by
  have hcap : rxCap u = 16 := by simp [rxCap, hfe, Config.rxFifoDepth]
  induction bs generalizing q e with
  | nil => simp [List.take_of_length_le hl, Nat.not_lt.mpr hl]
  | cons b bs ih =>
    rw [List.foldl_cons, pushRx_withQueue, hcap, if_pos hfe]
    by_cases hroom : q.length < 16
    · rw [if_pos hroom, ih _ _ (by simpa using hroom)]
      simp
    · have hfull : q.length = 16 := by omega
      rw [if_neg hroom, ih _ _ hl]
      simp [hfull]

/-- With the FIFO off, each byte takes the holding register over, with OE when it was occupied (R140). -/
theorem pushAll_of_fifo_off {u : Uart} (hfe : u.fcrFe = false) (bs q : List Byte) (e : Bool) (hl : q.length ≤ 1) :
    bs.foldl (fun u b => pushRx b u) (u.withQueue q e) =
      u.withQueue (q ++ bs).getLast?.toList (e || decide (1 < (q ++ bs).length)) := by
  have hcap : rxCap u = 1 := by simp [rxCap, hfe]
  have hoff : ¬u.fcrFe = true := by simp [hfe]
  induction bs generalizing q e with
  | nil =>
    match q, hl with
    | [], _ | [_], _ => simp
  | cons b bs ih =>
    rw [List.foldl_cons, pushRx_withQueue, hcap, if_neg hoff]
    match q, hl with
    | [], _ => exact ih [b] e le_rfl
    | [x], _ =>
      rw [if_neg (by simp), ih [b] true le_rfl]
      simp

/-- A record with an empty queue, seen as one with its queue and OE set. -/
theorem Uart.withQueue_of_empty {u : Uart} (h : u.rxq = []) : u.withQueue [] u.oe = u := by rw [← h]; rfl

/-- The record that a run of bytes received with the FIFO on and empty leaves. -/
theorem runOps_evRx_of_fifo_on {p : PortId} {s : State} (hfe : (s.uart p).fcrFe = true) (hempty : (s.uart p).rxq = [])
    (bs : List Byte) : (runOps s (bs.map (fun b => Instr.evRx p b))).uart p =
      (s.uart p).withQueue (bs.take 16) ((s.uart p).oe || decide (16 < bs.length)) := by
  have hpush := pushAll_of_fifo_on hfe bs [] (s.uart p).oe (Nat.zero_le _)
  rw [Uart.withQueue_of_empty hempty] at hpush
  rw [runOps_evRx_uart, if_pos rfl, hpush]
  rfl

/-- Settles O47: the run fills the queue of its own port up to 16. -/
theorem fifoKeepsTheFirstSixteen : Obligations.FifoKeepsTheFirstSixteen := by
  intro p bs s hfe hempty
  rw [runOps_evRx_of_fifo_on hfe hempty]
  refine ⟨rfl, rfl, ?_⟩
  rw [runOps_evRx_uart, if_neg (PortId.other_ne p)]

/-- Settles O48: each byte of the run takes the holding register over. -/
theorem holdingRegisterKeepsTheLast : Obligations.HoldingRegisterKeepsTheLast := by
  intro p bs s hfe hempty
  have hpush := pushAll_of_fifo_off hfe bs [] (s.uart p).oe (Nat.zero_le _)
  rw [Uart.withQueue_of_empty hempty] at hpush
  rw [runOps_evRx_uart, if_pos rfl, hpush]
  exact ⟨rfl, rfl⟩

/-- As many RBR reads as `bs` is long, of a queue that begins with `bs`: they return `bs` and take it off, and the last of
it stays as `rbr_last` (R23, R100 b). -/
theorem drain_of_append (p : PortId) (bs rest : List Byte) {s : State} (h : (s.uart p).rxq = bs ++ rest) :
    (drain p bs.length s).1 = bs.map some ∧
    (drain p bs.length s).2.uart p =
      { s.uart p with rxq := rest, rbrLast := bs.getLast?.getD (s.uart p).rbrLast } := by
  induction bs generalizing s with
  | nil =>
    refine ⟨rfl, ?_⟩
    rw [List.nil_append] at h
    rw [← h]
    rfl
  | cons b bs ih =>
    obtain ⟨t, ht⟩ := exec_completes (.rdRbr p) s
    obtain ⟨hpop, hvalue⟩ := popRx_of_cons (q := bs ++ rest) h
    have hu : t.uart p = { s.uart p with rxq := bs ++ rest, rbrLast := b } := by
      rw [exec_uart ht, uartAfter, if_pos rfl, hpop]
    have hr : t.result = some b := by rw [exec_result ht, resultAfter, hvalue]
    obtain ⟨hvalues, hleft⟩ := ih (s := t) (by rw [hu])
    simp only [List.length_cons, drain, ht, hvalues, hleft]
    simp [hr, hu, List.getLast?_cons]

/-- Settles O49: none of the bytes is lost on the way in, and the reads take them off in order. -/
theorem receivedBytesAreReadInOrder : Obligations.ReceivedBytesAreReadInOrder := by
  intro p bs s hfe hempty hlen
  have hrun := runOps_evRx_of_fifo_on hfe hempty bs
  rw [List.take_of_length_le hlen, decide_eq_false (Nat.not_lt.mpr hlen), Bool.or_false] at hrun
  obtain ⟨hvalues, hleft⟩ := drain_of_append p bs [] (s := runOps s (bs.map (fun b => Instr.evRx p b)))
    (by rw [hrun, List.append_nil]; rfl)
  rw [hrun] at hleft
  refine ⟨hvalues, ?_, ?_, ?_⟩ <;> rw [hleft] <;> rfl

/-! ## The views and the reset state -/

/-- A bit of a byte that holds one bit (R31). -/
theorem bitAt_getElem (b : Bool) {i j : Nat} (hj : j < 8) : (bitAt b i)[j] = (decide (j = i) && b) := by
  have hbit : (bitAt b i)[j] = (!decide (j < i) && (decide (j - i = 0) && b)) := by
    simp [bitAt, BitVec.getElem_shiftLeft, BitVec.getElem_setWidth]
  have hsame : (!decide (j < i) && decide (j - i = 0)) = decide (j = i) := by
    rw [Bool.eq_iff_iff]
    simp only [Bool.and_eq_true, Bool.not_eq_true', decide_eq_true_eq, decide_eq_false_iff_not]
    omega
  rw [hbit, ← Bool.and_assoc, hsame]

/-- Settles O23: each bit of the view is the one field shifted there. -/
theorem lsrViewBits : Obligations.LsrViewBits := by
  intro u
  obtain ⟨hthre, htemt, hzero⟩ := lsr_constant_bits u
  refine ⟨?_, ?_, ?_, ?_, ?_, hthre, htemt, hzero⟩ <;> simp [lsr, bitAt_getElem, dataReady]

/-- Settles O35: every operation ends with the interrupt re-evaluation. -/
theorem serialBitIsCurrentAfterEveryOperation : Obligations.SerialBitIsCurrentAfterEveryOperation :=
  fun _ _ _ h => ⟨exec_fiqCurrent h, exec_last_output h⟩

/-- Settles O38: both ports are as reset leaves them, where no source is enabled, and the serial bit is 0. -/
theorem invariantHoldsAtReset : Obligations.InvariantHoldsAtReset :=
  ⟨⟨Uart.reset_inv, Uart.reset_inv⟩, rfl⟩

end Sys2Proof.Machine
end

section
/-! SUPPORT. The proofs of the statements of 20_memory.md: which register a host access reaches, which accesses leave the
block alone, what reaches the serial buses, and what a second read returns, each after the facts it rests on. -/

namespace Sys2Proof.Machine

/-! ## The address decode -/

/-- A UART's range does not wrap around: its ports as numbers are the base and the offset (R51). -/
theorem basePort_add_toNat (p : PortId) (off : Offset) :
    (basePort p + off.setWidth 11).toNat = (basePort p).toNat + off.toNat := by
  cases p <;> simp only [basePort, Config.com1Base, Config.com2Base] <;> bv_omega

/-- A port in the range at `base` is `base` and its offset (R51). -/
theorem eq_add_offset_of_inRange {base port : IoPort} (h : inRange base port = true) :
    port = base + ((port - base).setWidth 3).setWidth 11 := by
  obtain ⟨hle, hge⟩ := of_decide_eq_true h
  bv_omega

/-- An address whose port number is that of a UART's register selects that register (R50, R51). -/
theorem selectUart_of_port {addr : Word} {p : PortId} {off : Offset}
    (h : addr.toNat / 4 % 0x800 = (basePort p).toNat + off.toNat) : selectUart (ioPort addr) = some (p, off) := by
  have hport : ioPort addr = basePort p + off.setWidth 11 :=
    BitVec.eq_of_toNat_eq (by rw [ioPort_toNat, h, basePort_add_toNat])
  rw [hport, selectUart_base]

/-- Only the ports of its range select a UART (R51). -/
theorem selectUart_port {port : IoPort} {p : PortId} {off : Offset} (h : selectUart port = some (p, off)) :
    port = basePort p + off.setWidth 11 := by
  unfold selectUart at h
  split at h
  case isTrue hin =>
    cases h
    exact eq_add_offset_of_inRange hin
  case isFalse =>
    split at h
    case isTrue hin =>
      cases h
      exact eq_add_offset_of_inRange hin
    case isFalse => cases h

/-- A port number outside both ranges selects no UART (R51, R54). -/
theorem selectUart_eq_none {addr : Word}
    (h : ∀ k < 8, addr.toNat / 4 % 0x800 ≠ 0x3F8 + k ∧ addr.toNat / 4 % 0x800 ≠ 0x2F8 + k) :
    selectUart (ioPort addr) = none := by
  rw [Option.eq_none_iff_forall_ne_some]
  rintro ⟨p, off⟩ hsel
  have hport : addr.toNat / 4 % 0x800 = (basePort p).toNat + off.toNat := by
    rw [← ioPort_toNat, selectUart_port hsel, basePort_add_toNat]
  obtain ⟨hne1, hne2⟩ := h off.toNat off.isLt
  cases p
  case com1 => exact hne1 hport
  case com2 => exact hne2 hport

/-- The I/O port is the low 11 bits of the word address (R50). -/
theorem ioPort_eq_ofNat (addr : Word) : ioPort addr = BitVec.ofNat 11 (addr.toNat / 4) :=
  BitVec.eq_of_toNat_eq (by rw [ioPort_toNat, BitVec.toNat_ofNat])

/-! ## Host accesses -/

/-- The eight offsets of a UART (R55). -/
theorem offset_cases : ∀ off : Offset,
    off = 0#3 ∨ off = 1#3 ∨ off = 2#3 ∨ off = 3#3 ∨ off = 4#3 ∨ off = 5#3 ∨ off = 6#3 ∨ off = 7#3 := by decide

/-- The decoder takes every encoded operation back, whichever DLAB bit is sampled (R70 to R76). -/
theorem decodeOp_encodeOp (dlab : Bool) (i : Instr) : decodeOp (encodeOp dlab i) = .ok i := by
  cases i <;> cases dlab <;>
    simp [encodeOp, decodeOp, opRows, gatedRows, ungatedRows, eventRows, OpRow.hits, hostKey, eventKey]

/-- The triple of a host read encodes the read side of the register map (R55, R73, R75). -/
theorem encodeOp_readAt (p : PortId) (dlab : Bool) (off : Offset) :
    encodeOp dlab (readAt p dlab off) = ⟨hostKey false dlab off, p, 0#8⟩ := by
  rcases offset_cases off with rfl | rfl | rfl | rfl | rfl | rfl | rfl | rfl <;> cases dlab <;> rfl

/-- The triple of a host write encodes the write side of the register map (R55, R73, R75). -/
theorem encodeOp_writeAt (p : PortId) (dlab : Bool) (off : Offset) (b : Byte) :
    encodeOp dlab (writeAt p dlab off b) = ⟨hostKey true dlab off, p, b⟩ := by
  rcases offset_cases off with rfl | rfl | rfl | rfl | rfl | rfl | rfl | rfl <;> cases dlab <;> rfl

/-- A host read of a UART's port runs the register map's operation (R53, R72). -/
theorem performCall_read_of_select {addr : Word} {p : PortId} {off : Offset}
    (h : selectUart (ioPort addr) = some (p, off)) (s : State) :
    performCall (.superioRead addr) s = exec (readAt p (s.dlab p) off) s :=
  performCall_of_decode (by simp only [operationOf, h, encodeOp_readAt]) (decodeOp_encodeOp (s.dlab p) _)

/-- A host write to a UART's port runs the register map's operation, on `val[7:0]` (R53, R72). -/
theorem performCall_write_of_select {addr : Word} {p : PortId} {off : Offset}
    (h : selectUart (ioPort addr) = some (p, off)) (val : Word) (s : State) :
    performCall (.superioWrite addr val) s = exec (writeAt p (s.dlab p) off (val.setWidth 8)) s :=
  performCall_of_decode (by simp only [operationOf, h, encodeOp_writeAt, writeData]) (decodeOp_encodeOp (s.dlab p) _)

/-- Settles O7: the port number selects the register, and the key made of it decodes by the register map. -/
theorem hostAccessReachesItsRegister : Obligations.HostAccessReachesItsRegister := by
  intro s p off addr val rest h
  have hsel : selectUart (ioPort addr) = some (p, off) := by
    apply selectUart_of_port
    cases p <;> exact h
  have hdlab : State.dlab { s with calls := rest } p = (s.uart p).lcr[7] := dlab_with_calls s rest p
  constructor
  · rw [step_of_call rfl, performCall_read_of_select hsel, hdlab]
  · rw [step_of_call rfl, performCall_write_of_select hsel, hdlab]

/-- A host read rests on its address only by the port number (R50). -/
theorem performCall_read_congr {a b : Word} (h : ioPort a = ioPort b) (s : State) :
    performCall (.superioRead a) s = performCall (.superioRead b) s := by
  simp only [performCall, operationOf, foreignAccess, h]

/-- A host write rests on its address only by the port number, and on its value only by `val[7:0]` (R50, R53). -/
theorem performCall_write_congr {a b v w : Word} (h : ioPort a = ioPort b) (hv : writeData v = writeData w) (s : State) :
    performCall (.superioWrite a v) s = performCall (.superioWrite b w) s := by
  simp only [performCall, operationOf, foreignAccess, h, hv]

/-- Settles O8: the port number is address bits 12:2, and nothing else of the address is read. -/
theorem hostAccessIgnoresUnusedBits : Obligations.HostAccessIgnoresUnusedBits := by
  intro s a b v w rest haddr hval
  have hport : ioPort a = ioPort b := by rw [ioPort_eq_extract, ioPort_eq_extract, haddr]
  constructor
  · rw [step_of_call rfl, step_of_call rfl, performCall_read_congr hport]
  · rw [step_of_call rfl, step_of_call rfl, performCall_write_congr hport hval]

/-- Settles O9: the address selects no UART, so the access sets the result and the free-value counter only. -/
theorem foreignAccessLeavesTheBlockAlone : Obligations.ForeignAccessLeavesTheBlockAlone := by
  intro s addr val rest h
  have hsel := selectUart_eq_none h
  constructor
  · rw [step_of_call rfl, performCall_of_foreign (by simp only [operationOf, hsel]), ← ioPort_eq_ofNat]
    exact ⟨_, rfl, rfl, rfl, rfl, rfl, rfl, rfl, rfl⟩
  · rw [step_of_call rfl, performCall_of_foreign (by simp only [operationOf, hsel])]
    exact ⟨_, rfl, rfl, rfl, rfl, rfl, rfl, rfl, rfl⟩

/-! ## What reaches the serial buses -/

/-- The interrupt re-evaluation puts nothing on a bus (R155). -/
theorem filter_toBus_updateirqs (os : List Output) (n : Nat) (l : Bool) :
    (os ++ [Output.updateirqs n l]).filter toBus = os.filter toBus := by
  simp [toBus]

/-- Device events put nothing on a bus (R60). -/
theorem deviceEvents_toBus (es : List DeviceEvent) (s : State) :
    (es.foldl deviceEvent s).outputs.filter toBus = s.outputs.filter toBus := by
  induction es generalizing s with
  | nil => rfl
  | cons e es ih =>
    rw [List.foldl_cons, ih, deviceEvent_eq, irqUpdate_outputs, filter_toBus_updateirqs, State.update_outputs]

/-- An emit to the bus puts out its own output, and the device's reaction adds nothing to it (R60). -/
theorem emitToBus_toBus (o : Output) (s : State) :
    (emitToBus o s).outputs.filter toBus = s.outputs.filter toBus ++ [o].filter toBus := by
  rw [← List.filter_append]
  rcases emitToBus_cases o s with ⟨-, e⟩ | ⟨es, later, -, e⟩ <;> rw [e]
  · rfl
  · exact deviceEvents_toBus es { s.emit o with reactions := later }

/-- The low nibble as a bit slice (R133). -/
theorem lowNibble_eq_extract (b : Byte) : lowNibble b = b.extractLsb' 0 4 :=
  BitVec.setWidth_eq_extractLsb' (by decide)

/-- Settles O42: an operation's own outputs are those of its emit, if it has one, and the interrupt re-evaluation. -/
theorem onlyThrAndMcrWritesReachTheBus : Obligations.OnlyThrAndMcrWritesReachTheBus := by
  intro i s t h
  cases i <;> injection h with h <;> subst h
  case wrThr p b =>
    rw [finish_outputs, filter_toBus_updateirqs, State.update_outputs, emitToBus_toBus]
    rfl
  case wrMcr p b =>
    rw [finish_outputs, filter_toBus_updateirqs, State.update_outputs, emitToBus_toBus, State.update_outputs,
      lowNibble_eq_extract]
    rfl
  all_goals simp [toBus, receiveByte, modemStatus]

/-! ## Second reads -/

/-- What an operation that is run twice returns each time, and what port p holds in between. -/
theorem exec_twice {i : Instr} {s t t' : State} (h : exec i s = .next t) (h' : exec i t = .next t') (p : PortId) :
    t.result = resultAfter i s ∧ t'.result = resultAfter i t ∧ t.uart p = uartAfter i s p :=
  ⟨exec_result h, exec_result h', exec_uart h p⟩

/-- An RBR read returns the oldest byte waiting, or the last one taken (R100). -/
theorem rbrValue_eq_headD (u : Uart) : rbrValue u = u.rxq.headD u.rbrLast := by
  cases hq : u.rxq with
  | nil => exact (popRx_of_nil hq).2
  | cons v q => exact (popRx_of_cons hq).2

/-- After an RBR read the next one returns the byte behind, or the same byte again (R58, R100). -/
theorem rbrValue_popRx (u : Uart) : rbrValue (popRx u) = u.rxq.tail.headD (rbrValue u) := by
  cases hq : u.rxq with
  | nil => rw [(popRx_of_nil hq).1]; rfl
  | cons v q =>
    obtain ⟨hpop, hvalue⟩ := popRx_of_cons hq
    rw [hpop, hvalue, rbrValue_eq_headD]
    rfl

/-- The LSR view once its error bits are cleared (R31, R122). -/
theorem lsr_clearErrors (u : Uart) : lsr (clearErrors u) = lsr u &&& 0xE1#8 := by
  have hdr : dataReady (clearErrors u) = dataReady u := rfl
  simp only [lsr, hdr]
  simp only [clearErrors]
  cases u.bi <;> cases u.fe <;> cases u.pe <;> cases u.oe <;> cases dataReady u <;> decide

/-- The MSR view once its delta bits are cleared (R32, R134). -/
theorem msr_clearDelta (u : Uart) : msr { u with msrDelta := 0#4 } = msr u &&& 0xF0#8 := by
  have hones : u.msrStatus &&& 0xF#4 = u.msrStatus := BitVec.and_allOnes
  calc msr { u with msrDelta := 0#4 }
    _ = (u.msrStatus &&& 0xF#4) ++ (u.msrDelta &&& 0#4) := by rw [hones, BitVec.and_zero]; rfl
    _ = msr u &&& 0xF0#8 := BitVec.and_append.symm

/-- The FIFO bits of IIR do not reach its identification nibble (R110). -/
theorem iir_lowNibble (u : Uart) : lowNibble (iir u) = lowNibble (iirId u) := by
  unfold iir
  rcases iirId_cases u with ⟨-, e⟩ | ⟨-, -, e⟩ | ⟨-, -, -, e⟩ | ⟨-, -, -, -, e⟩ | ⟨-, -, -, -, e⟩ <;> rw [e] <;>
    cases u.fcrFe <;> rfl

/-- IIR reports THRE only while that source holds (R110). -/
theorem threHolds_of_iir {u : Uart} (h : lowNibble (iir u) = 0x2#4) : threHolds u = true := by
  rw [iir_lowNibble] at h
  rcases iirId_cases u with ⟨-, e⟩ | ⟨-, -, e⟩ | ⟨-, -, hthre, -⟩ | ⟨-, -, -, -, e⟩ | ⟨-, -, -, -, e⟩
  case inr.inr.inl => exact hthre
  all_goals rw [e] at h; exact absurd h (by decide)

/-- An IIR read that does not report THRE changes nothing (R111). -/
theorem ackIir_of_ne {v : Byte} (h : lowNibble v ≠ 0x2#4) (u : Uart) : ackIir v u = u := by
  simp [ackIir, h]

/-- After an IIR read, IIR does not report THRE (R111). -/
theorem iir_ackIir_ne (u : Uart) : lowNibble (iir (ackIir (iir u) u)) ≠ 0x2#4 := by
  by_cases hthre : lowNibble (iir u) = 0x2#4
  · intro h
    have hholds := threHolds_of_iir h
    simp [ackIir, hthre, threHolds] at hholds
  · rwa [ackIir_of_ne hthre]

/-- The six reads without a side effect leave the port's record as it was (R58). -/
theorem plainRead_uart {p : PortId} {i : Instr}
    (hi : i ∈ [Instr.rdDll p, .rdDlm p, .rdIer p, .rdLcr p, .rdMcr p, .rdScr p]) (s : State) :
    i.port? = some p ∧ uartAfter i s p = s.uart p := by
  simp only [List.mem_cons, List.not_mem_nil, or_false] at hi
  rcases hi with rfl | rfl | rfl | rfl | rfl | rfl <;> exact ⟨rfl, rfl⟩

/-- Settles O46: a second read sees the record that the first one left. -/
theorem secondReadsDiffer : Obligations.SecondReadsDiffer := by
  intro p s t t'
  refine ⟨fun h h' => ?rbr, fun h h' => ?lsr, fun h h' => ?msr, fun h h' => ?iir, fun i hi h h' => ?plain⟩ <;>
    obtain ⟨hfirst, hsecond, hu⟩ := exec_twice h h' p
  case plain =>
    obtain ⟨hport, hsame⟩ := plainRead_uart hi s
    rw [hsame] at hu
    exact ⟨by rw [hfirst, hsecond, resultAfter_congr hport hu], hu⟩
  all_goals simp only [uartAfter, if_true, resultAfter] at hfirst hsecond hu; rw [hu] at hsecond
  case rbr =>
    rw [rbrValue_popRx] at hsecond
    rw [hfirst, hsecond, rbrValue_eq_headD]
    exact ⟨fun v w q hq => by simp [hq], fun v hq => by simp [hq], fun hq => by simp [hq]⟩
  case lsr => rw [hsecond, lsr_clearErrors]
  case msr => rw [hsecond, msr_clearDelta]
  case iir =>
    refine ⟨_, hsecond, ?_, fun hne => ?_⟩
    · rw [← lowNibble_eq_extract]
      exact iir_ackIir_ne _
    · rw [← lowNibble_eq_extract] at hne
      rw [ackIir_of_ne hne]

end Sys2Proof.Machine
end

section
/-! SUPPORT. The proofs of the statements of 30_encoding.md: the decoder and the encoder, the calls that make an operation, the
assembly lines and the pseudo-operations, each after the facts it rests on. -/

namespace Sys2Proof.Machine

/-! ## The decoder, key by key -/

/-- A legal key is a host-access key or has bits 4:0 zero (R71, R77). -/
theorem wellFormed_iff (o : Operation) :
    o.wellFormed = true ↔ o.key.extractLsb' 5 2 = 0#2 ∨ o.key.extractLsb' 0 5 = 0#5 := by
  simp [Operation.wellFormed, Operation.kind]

/-- No row of the table has a reserved key (R77). -/
theorem opRows_miss_of_reserved : ∀ k : BitVec 7,
    k.extractLsb' 5 2 ≠ 0#2 ∧ k.extractLsb' 0 5 ≠ 0#5 → (opRows.find? (fun r => r.hits k)).isNone = true := by
  decide

/-- The decoder refuses a reserved key, by name (R77). -/
theorem decodeOp_of_reserved {o : Operation} (h : o.key.extractLsb' 5 2 ≠ 0#2 ∧ o.key.extractLsb' 0 5 ≠ 0#5) :
    decodeOp o = .error .reservedKey := by
  have hnone := Option.isNone_iff_eq_none.mp (opRows_miss_of_reserved o.key h)
  simp only [decodeOp, hnone]

/-- The decoder accepts exactly the legal keys (R77). -/
theorem decodeOp_isOk_iff (o : Operation) : (∃ i, decodeOp o = .ok i) ↔ o.wellFormed = true := by
  refine ⟨fun ⟨i, hi⟩ => ?_, decodeOp_of_wellFormed⟩
  by_contra hwf
  rw [wellFormed_iff, not_or] at hwf
  rw [decodeOp_of_reserved hwf] at hi
  cases hi

/-- A host read's key decodes to the register map's read, whatever the data (R55, R73, R76). -/
theorem decodeOp_hostRead (p : PortId) (b : Byte) (d : Bool) (off : Offset) :
    decodeOp ⟨hostKey false d off, p, b⟩ = .ok (readAt p d off) := by
  rcases offset_cases off with rfl | rfl | rfl | rfl | rfl | rfl | rfl | rfl <;> cases d <;>
    simp [decodeOp, opRows, gatedRows, ungatedRows, eventRows, OpRow.hits, hostKey, readAt]

/-- A host write's key decodes to the register map's write of the data (R55, R73, R76). -/
theorem decodeOp_hostWrite (p : PortId) (b : Byte) (d : Bool) (off : Offset) :
    decodeOp ⟨hostKey true d off, p, b⟩ = .ok (writeAt p d off b) :=
  encodeOp_writeAt p d off b ▸ decodeOp_encodeOp d _

/-- The key of a received byte (R74, R140). -/
theorem decodeOp_evRx (p : PortId) (b : Byte) : decodeOp ⟨eventKey 1#2, p, b⟩ = .ok (.evRx p b) :=
  decodeOp_encodeOp false (.evRx p b)

/-- The key of a modem-status change (R74, R141). -/
theorem decodeOp_evMstat (p : PortId) (st : Byte) : decodeOp ⟨eventKey 2#2, p, st⟩ = .ok (.evMstat p st) :=
  decodeOp_encodeOp false (.evMstat p st)

/-- The key of reset, whose port and data the decoder ignores (R70, R74). -/
theorem decodeOp_evReset (p : PortId) (b : Byte) : decodeOp ⟨eventKey 3#2, p, b⟩ = .ok .evReset := by
  simp [decodeOp, opRows, gatedRows, ungatedRows, eventRows, OpRow.hits, eventKey]

/-- The KIND field of a key that is no host access's names one of the three events (R71, R74). -/
theorem kind_of_event : ∀ e : BitVec 2, e ≠ 0#2 → e = 1#2 ∨ e = 2#2 ∨ e = 3#2 := by decide

/-- What a triple that decodes can be, and what it decodes to (R70 to R76). -/
theorem decodeOp_cases {o : Operation} {i : Instr} (h : decodeOp o = .ok i) :
    (∃ d off p b, o = ⟨hostKey false d off, p, b⟩ ∧ i = readAt p d off) ∨
    (∃ d off p b, o = ⟨hostKey true d off, p, b⟩ ∧ i = writeAt p d off b) ∨
    (∃ p b, o = ⟨eventKey 1#2, p, b⟩ ∧ i = .evRx p b) ∨ (∃ p b, o = ⟨eventKey 2#2, p, b⟩ ∧ i = .evMstat p b) ∨
    (∃ p b, o = ⟨eventKey 3#2, p, b⟩ ∧ i = .evReset) := by
  have hlegal := (wellFormed_iff o).mp ((decodeOp_isOk_iff o).mp ⟨i, h⟩)
  obtain ⟨k, p, b⟩ := o
  by_cases hkind : k.extractLsb' 5 2 = 0#2
  case pos =>
    obtain ⟨w, d, off, rfl⟩ : ∃ w d off, k = hostKey w d off := ⟨_, _, _, hostKey_of_fields k hkind⟩
    cases w
    case false => exact .inl ⟨d, off, p, b, rfl, Except.ok.inj (h.symm.trans (decodeOp_hostRead p b d off))⟩
    case true => exact .inr (.inl ⟨d, off, p, b, rfl, Except.ok.inj (h.symm.trans (decodeOp_hostWrite p b d off))⟩)
  case neg =>
    have hzero := hlegal.resolve_left hkind
    obtain ⟨e, he, rfl⟩ : ∃ e, (e = 1#2 ∨ e = 2#2 ∨ e = 3#2) ∧ k = eventKey e :=
      ⟨_, kind_of_event _ hkind, eventKey_of_fields k hzero⟩
    rcases he with rfl | rfl | rfl
    · exact .inr (.inr (.inl ⟨p, b, rfl, Except.ok.inj (h.symm.trans (decodeOp_evRx p b))⟩))
    · exact .inr (.inr (.inr (.inl ⟨p, b, rfl, Except.ok.inj (h.symm.trans (decodeOp_evMstat p b))⟩)))
    · exact .inr (.inr (.inr (.inr ⟨p, b, rfl, Except.ok.inj (h.symm.trans (decodeOp_evReset p b))⟩)))

/-- The W, DLAB and OFF fields of a host-access key (R71). -/
theorem hostKey_fields : ∀ (w d : Bool) (off : Offset),
    (hostKey w d off)[4] = w ∧ (hostKey w d off)[3] = d ∧ (hostKey w d off).setWidth 3 = off := by decide

/-- The read side of the register map stays on its port (R55). -/
theorem readAt_port (p : PortId) (d : Bool) (off : Offset) : (readAt p d off).port? = some p := by
  rcases offset_cases off with rfl | rfl | rfl | rfl | rfl | rfl | rfl | rfl <;> cases d <;> rfl

/-- The write side of the register map stays on its port (R55). -/
theorem writeAt_port (p : PortId) (d : Bool) (off : Offset) (b : Byte) : (writeAt p d off b).port? = some p := by
  rcases offset_cases off with rfl | rfl | rfl | rfl | rfl | rfl | rfl | rfl <;> cases d <;> rfl

/-! ## Decode and encode -/

/-- The decoder on bytes takes every encoded operation back (log entry 9). -/
theorem decodeBytes_encodeOp (dlab : Bool) (i : Instr) :
    decodeBytes (bytesOfOperation (encodeOp dlab i)) = .ok i := by
  simp only [decodeBytes, operationOfBytes_bytesOfOperation, decodeOp_encodeOp]

/-- Settles O4: back from a triple, each of the five forms that decode is what the encoder writes, up to a read's data
and a reset's port and data. -/
theorem decodeAndEncodeAgree : Obligations.DecodeAndEncodeAgree := by
  refine ⟨fun dlab i => ⟨decodeOp_encodeOp dlab i, decodeBytes_encodeOp dlab i⟩, fun o i h => ?_⟩
  rcases decodeOp_cases h with
    ⟨d, off, p, b, rfl, rfl⟩ | ⟨d, off, p, b, rfl, rfl⟩ | ⟨p, b, rfl, rfl⟩ | ⟨p, b, rfl, rfl⟩ | ⟨p, b, rfl, rfl⟩
  · obtain ⟨-, hdlab, -⟩ := hostKey_fields false d off
    simp [hdlab, encodeOp_readAt, readAt_port]
  · obtain ⟨-, hdlab, -⟩ := hostKey_fields true d off
    simp [hdlab, encodeOp_writeAt, writeAt_port]
  · exact ⟨rfl, fun q hq => (Option.some.inj hq).symm, .inl rfl⟩
  · exact ⟨rfl, fun q hq => (Option.some.inj hq).symm, .inl rfl⟩
  · exact ⟨rfl, nofun, .inr rfl⟩

/-- Settles O3: the table's rows cover the legal keys and no others, and an agent's call makes a legal key. -/
theorem reservedKeysAreRefused : Obligations.ReservedKeysAreRefused := by
  refine ⟨fun c s o ho => (wellFormed_iff o).mp (operationOf_wellFormed ho), fun o s => ⟨⟨fun he => ?_, ?_⟩,
    (decodeOp_isOk_iff o).trans (wellFormed_iff o), fun hres => ?_⟩⟩
  · rw [← not_or, ← wellFormed_iff, ← decodeOp_isOk_iff]
    rintro ⟨i, hi⟩
    cases he.symm.trans hi
  · exact decodeOp_of_reserved
  · simp only [performOperation, decodeOp_of_reserved hres]

/-- Settles O1: each of the 32 keys is the host key of its own fields, and the table has one row for each. -/
theorem hostAccessKeysDecode : Obligations.HostAccessKeysDecode := by
  refine ⟨fun p b => ?_, by decide⟩
  have read := decodeOp_hostRead p b
  have write := decodeOp_hostWrite p b
  exact ⟨read false 0#3, write false 0#3, read true 0#3, write true 0#3,
    read false 1#3, write false 1#3, read true 1#3, write true 1#3,
    read false 2#3, read true 2#3, write false 2#3, write true 2#3,
    read false 3#3, read true 3#3, write false 3#3, write true 3#3,
    read false 5#3, read true 5#3, write false 5#3, write true 5#3,
    read false 7#3, read true 7#3, write false 7#3, write true 7#3,
    read false 4#3, read true 4#3, write false 4#3, write true 4#3,
    read false 6#3, read true 6#3, write false 6#3, write true 6#3⟩

/-- Settles O2: the three keys with bits 4:0 zero and KIND 1, 2 and 3. -/
theorem eventKeysDecode : Obligations.EventKeysDecode :=
  fun p b => ⟨decodeOp_evRx p b, decodeOp_evMstat p b, decodeOp_evReset p b⟩

/-! ## Calls, and the call placed for a table word -/

/-- Settles O10: each call's triple is the key of its event, with the operands of the call. -/
theorem eventCallsMakeTheirOperations : Obligations.EventCallsMakeTheirOperations := by
  intro s p b rest
  refine ⟨?_, ?_, ?_⟩ <;> rw [step_of_call rfl]
  · exact performCall_of_decode rfl (decodeOp_evRx p b)
  · exact performCall_of_decode rfl (decodeOp_evMstat p b)
  · exact performCall_of_decode rfl (decodeOp_evReset .com1 0#8)

/-- The step after placing a host access runs its call, with LCR[7] of its port at the key's DLAB bit (R72, log entry 13). -/
theorem step_placeOperation_host {w d : Bool} {off : Offset} {p : PortId} {b : Byte} {c : Call}
    (hc : callOf ⟨hostKey w d off, p, b⟩ = some c) (s : State) :
    step (placeOperation ⟨hostKey w d off, p, b⟩ s) = performCall c (s.update p (setDlab d)) := by
  obtain ⟨-, hdlab, -⟩ := hostKey_fields w d off
  simp only [placeOperation, hc, Operation.kind, hostKey_kind, beq_self_eq_true, if_true, hdlab]
  exact step_of_call rfl

/-- The KIND field of an event key (R71). -/
theorem eventKey_kind : ∀ e : BitVec 2, (eventKey e).extractLsb' 5 2 = e := by decide

/-- The step after placing an event runs its call, and nothing else has changed (log entry 13). -/
theorem step_placeOperation_event {e : BitVec 2} {p : PortId} {b : Byte} {c : Call} (he : e ≠ 0#2)
    (hc : callOf ⟨eventKey e, p, b⟩ = some c) (s : State) :
    step (placeOperation ⟨eventKey e, p, b⟩ s) = performCall c s := by
  simp only [placeOperation, hc, Operation.kind, eventKey_kind, beq_eq_false_iff_ne.mpr he, Bool.false_eq_true, if_false]
  exact step_of_call rfl

/-- Setting LCR[7] changes no other bit of LCR, and nothing else of the port (R29, R72). -/
theorem setDlab_eq (d : Bool) (u : Uart) :
    ∃ b, setDlab d u = { u with lcr := b } ∧ b.extractLsb' 0 7 = u.lcr.extractLsb' 0 7 ∧ b[7] = d := by
  refine ⟨_, rfl, ?_, ?_⟩
  · cases d
    case false => exact BitVec.extractLsb'_and.trans BitVec.and_allOnes
    case true => exact BitVec.extractLsb'_or.trans BitVec.or_zero
  · cases d <;> simp

/-- The bit that `setDlab` sets is the one that a host access samples (R72). -/
theorem dlab_update_setDlab (s : State) (p : PortId) (d : Bool) : (s.update p (setDlab d)).dlab p = d := by
  obtain ⟨b, he, -, hd⟩ := setDlab_eq d (s.uart p)
  rw [State.dlab, State.update_uart, he]
  exact hd

/-- The call of a host read's triple goes to its register (log entry 13). -/
theorem callOf_hostRead (d : Bool) (off : Offset) (p : PortId) (b : Byte) :
    callOf ⟨hostKey false d off, p, b⟩ = some (.superioRead (hostAddr p off)) := by
  obtain ⟨hw, -, hoff⟩ := hostKey_fields false d off
  simp [callOf, Operation.kind, hostKey_kind, hw, hoff]

/-- The call of a host write's triple goes to its register, with the triple's data (log entry 13). -/
theorem callOf_hostWrite (d : Bool) (off : Offset) (p : PortId) (b : Byte) :
    callOf ⟨hostKey true d off, p, b⟩ = some (.superioWrite (hostAddr p off) (b.setWidth 32)) := by
  obtain ⟨hw, -, hoff⟩ := hostKey_fields true d off
  simp [callOf, Operation.kind, hostKey_kind, hw, hoff]

/-- The call of a received byte's triple (R76, log entry 13). -/
theorem callOf_evRx (p : PortId) (b : Byte) : callOf ⟨eventKey 1#2, p, b⟩ = some (.deviceWriteData p b) := by
  simp [callOf, Operation.kind, eventKey_kind, Laws.KeyLegal.event]

/-- The call of a modem-status change's triple (R76, log entry 13). -/
theorem callOf_evMstat (p : PortId) (st : Byte) : callOf ⟨eventKey 2#2, p, st⟩ = some (.deviceStatus p st) := by
  simp [callOf, Operation.kind, eventKey_kind, Laws.KeyLegal.event]

/-- The call of a reset's triple (R76, log entry 13). -/
theorem callOf_evReset (p : PortId) (b : Byte) : callOf ⟨eventKey 3#2, p, b⟩ = some .superioReset := by
  simp [callOf, Operation.kind, eventKey_kind, Laws.KeyLegal.event]

/-- A triple that decodes is run by the step after it is placed; the only change made for it is to LCR[7] of a host
access's port (log entry 13). -/
theorem step_placeOperation_of_decode {o : Operation} {i : Instr} (h : decodeOp o = .ok i) (s : State) :
    ∃ t, step (placeOperation o s) = exec i t ∧
      (t = s ∨ ∃ p, i.port? = some p ∧ t = s.update p (setDlab (o.key[3]))) := by
  rcases decodeOp_cases h with
    ⟨d, off, p, b, rfl, rfl⟩ | ⟨d, off, p, b, rfl, rfl⟩ | ⟨p, b, rfl, rfl⟩ | ⟨p, b, rfl, rfl⟩ | ⟨p, b, rfl, rfl⟩
  · obtain ⟨-, hdlab, -⟩ := hostKey_fields false d off
    refine ⟨s.update p (setDlab d), ?_, .inr ⟨p, readAt_port p d off, by rw [hdlab]⟩⟩
    rw [step_placeOperation_host (callOf_hostRead d off p b),
      performCall_read_of_select (selectUart_hostAddr p off), dlab_update_setDlab]
  · obtain ⟨-, hdlab, -⟩ := hostKey_fields true d off
    have hdata : (b.setWidth 32).setWidth 8 = b := by simp
    refine ⟨s.update p (setDlab d), ?_, .inr ⟨p, writeAt_port p d off b, by rw [hdlab]⟩⟩
    rw [step_placeOperation_host (callOf_hostWrite d off p b),
      performCall_write_of_select (selectUart_hostAddr p off), dlab_update_setDlab, hdata]
  · refine ⟨s, ?_, .inl rfl⟩
    rw [step_placeOperation_event (by decide) (callOf_evRx p b)]
    exact performCall_of_decode rfl (decodeOp_evRx p b)
  · refine ⟨s, ?_, .inl rfl⟩
    rw [step_placeOperation_event (by decide) (callOf_evMstat p b)]
    exact performCall_of_decode rfl (decodeOp_evMstat p b)
  · refine ⟨s, ?_, .inl rfl⟩
    rw [step_placeOperation_event (by decide) (callOf_evReset p b)]
    exact performCall_of_decode rfl (decodeOp_evReset .com1 0#8)

/-- The key that three bytes hold is the low seven bits of the first (log entry 9). -/
theorem operationOfBytes_key {k p d : Byte} {o : Operation} (h : operationOfBytes [k, p, d] = .ok o) :
    o.key = k.setWidth 7 := by
  simp only [operationOfBytes] at h
  split at h
  · cases h
  · split at h
    · cases h
      rfl
    · cases h

/-- A table word that decodes holds a triple that decodes, whose DLAB bit is bit 3 of the word (R71, log entry 9). -/
theorem decodeTableWord_some {nbits w : Nat} {i : Instr} (h : decodeTableWord nbits w = some i) :
    ∃ o, operationOfBytes (tableBytes nbits w) = .ok o ∧ decodeOp o = .ok i ∧
      o.key[3] = (w % 2 ^ nbits).testBit 3 := by
  simp only [decodeTableWord, decodeBytes] at h
  cases ho : operationOfBytes (tableBytes nbits w) with
  | error e => simp [ho] at h
  | ok o =>
    refine ⟨o, rfl, ?_, ?_⟩
    · cases hi : decodeOp o <;> simp_all
    · rw [operationOfBytes_key ho, BitVec.getElem_setWidth, BitVec.getLsbD_ofNat]
      rfl

/-- Settles O11: the word's bytes hold a triple that decodes, and placing it makes the next step run it. -/
theorem fetchWordRunsItsOperation : Obligations.FetchWordRunsItsOperation := by
  intro s nbits w i h
  obtain ⟨o, ho, hi, hbit⟩ := decodeTableWord_some h
  have hplace : s.withFetchWord nbits w = placeOperation o s := by simp only [State.withFetchWord, placeBytes, ho]
  obtain ⟨t, hstep, hsame | ⟨p, hport, hset⟩⟩ := step_placeOperation_of_decode hi s
  · exact ⟨t, hplace ▸ hstep, .inl hsame⟩
  · obtain ⟨b, he, hlow, hd⟩ := setDlab_eq (o.key[3]) (s.uart p)
    exact ⟨t, hplace ▸ hstep, .inr ⟨p, b, hport, hlow, hd.trans hbit, hset.trans (congrArg (s.setUart p) he)⟩⟩

/-! ## Lines -/

/-- The line assembles, in `s`, to a triple that decodes to `i` (R80). -/
def Assembles (l : Line) (s : State) (i : Instr) : Prop := ∃ o, assemble l s = .ok o ∧ decodeOp o = .ok i

/-- A read line whose register gives an offset stands for the register map's read there (R55, R80). -/
theorem assembles_rd {p : PortId} {r : RegRef} {s : State} {off : Offset} (hwf : (Line.rd p r).wellFormed = true)
    (hoff : r.offsetUnder (s.dlab p) = .ok off) : Assembles (.rd p r) s (readAt p (s.dlab p) off) :=
  ⟨_, by simp only [assemble, hwf, hoff]; rfl, decodeOp_hostRead p 0#8 (s.dlab p) off⟩

/-- A write line whose register gives an offset stands for the register map's write there (R55, R80). -/
theorem assembles_wr {p : PortId} {r : RegRef} {b : Byte} {s : State} {off : Offset}
    (hwf : (Line.wr p r b).wellFormed = true) (hoff : r.offsetUnder (s.dlab p) = .ok off) :
    Assembles (.wr p r b) s (writeAt p (s.dlab p) off b) :=
  ⟨_, by simp only [assemble, hwf, hoff]; rfl, decodeOp_hostWrite p b (s.dlab p) off⟩

/-- A register name gives its offset when the DLAB value it implies, if any, is the one sampled (R80). -/
theorem offsetUnder_named {r : RegName} {d : Bool} (h : r.dlabImplied.all (· == d) = true) :
    (RegRef.named r).offsetUnder d = .ok r.offset := by
  cases hr : r.dlabImplied with
  | none => simp [RegRef.offsetUnder, hr]
  | some e =>
    have he : e = d := by simpa [hr] using h
    simp [RegRef.offsetUnder, hr, he]

/-- A register name is refused under the other DLAB value than the one it implies (R80). -/
theorem offsetUnder_mismatched {r : RegName} {d : Bool} (h : r.dlabImplied = some (!d)) :
    (RegRef.named r).offsetUnder d = .error .dlabMismatch := by
  simp [RegRef.offsetUnder, h]

/-- A numeric offset is always accepted (R80). -/
theorem offsetUnder_offset (off : Offset) (d : Bool) : (RegRef.offset off.toNat).offsetUnder d = .ok off := by
  simp [RegRef.offsetUnder]

/-- A read line of a register name, under the DLAB value it implies, if any (R80). -/
theorem assembles_rd_named {p : PortId} {r : RegName} {s : State} {d : Bool} (hr : r.readable = true) (hd : s.dlab p = d)
    (h : r.dlabImplied.all (· == d) = true) : Assembles (.rd p (.named r)) s (readAt p d r.offset) :=
  hd ▸ assembles_rd hr (offsetUnder_named (hd ▸ h))

/-- A write line of a register name, under the DLAB value it implies, if any (R80). -/
theorem assembles_wr_named {p : PortId} {r : RegName} {b : Byte} {s : State} {d : Bool} (hr : r.writable = true)
    (hd : s.dlab p = d) (h : r.dlabImplied.all (· == d) = true) :
    Assembles (.wr p (.named r) b) s (writeAt p d r.offset b) :=
  hd ▸ assembles_wr hr (offsetUnder_named (hd ▸ h))

/-- A read line whose register needs the other DLAB value is refused (R80). -/
theorem assemble_rd_mismatched {p : PortId} {r : RegName} {s : State} {d : Bool} (hr : r.readable = true)
    (hd : s.dlab p = d) (h : r.dlabImplied = some (!d)) : assemble (.rd p (.named r)) s = .error .dlabMismatch := by
  simp [assemble, Line.wellFormed, hr, hd, offsetUnder_mismatched h]

/-- A write line whose register needs the other DLAB value is refused (R80). -/
theorem assemble_wr_mismatched {p : PortId} {r : RegName} {b : Byte} {s : State} {d : Bool} (hr : r.writable = true)
    (hd : s.dlab p = d) (h : r.dlabImplied = some (!d)) : assemble (.wr p (.named r) b) s = .error .dlabMismatch := by
  simp [assemble, Line.wellFormed, hr, hd, offsetUnder_mismatched h]

/-- Settles O50: a line stands for the register map's operation at its register's offset, under the DLAB bit of the state. -/
theorem linesAssembleToTheirOperations : Obligations.LinesAssembleToTheirOperations := by
  intro p b s makes mismatched
  have read {r : RegName} (hr : r.readable = true) (h : r.dlabImplied.all (· == s.dlab p) = true) :=
    assembles_rd_named hr rfl h
  have write {r : RegName} (hr : r.writable = true) (h : r.dlabImplied.all (· == s.dlab p) = true) :=
    assembles_wr_named (b := b) hr rfl h
  refine ⟨fun hd => ?clear, fun hd => ?set, read rfl rfl, read rfl rfl, read rfl rfl, read rfl rfl, read rfl rfl,
    read rfl rfl, write rfl rfl, write rfl rfl, write rfl rfl, write rfl rfl, write rfl rfl, write rfl rfl,
    ⟨_, rfl, decodeOp_evRx p b⟩, ⟨_, rfl, decodeOp_evMstat p b⟩, ⟨_, rfl, decodeOp_evReset .com1 0#8⟩,
    fun off => ⟨?readOffset, ?writeOffset⟩, rfl, rfl, rfl, rfl⟩
  case readOffset => exact assembles_rd (decide_eq_true off.isLt) (offsetUnder_offset off _)
  case writeOffset => exact assembles_wr (decide_eq_true off.isLt) (offsetUnder_offset off _)
  all_goals exact ⟨assembles_rd_named rfl hd rfl, assembles_rd_named rfl hd rfl, assembles_wr_named rfl hd rfl,
    assembles_wr_named rfl hd rfl, assemble_rd_mismatched rfl hd rfl, assemble_rd_mismatched rfl hd rfl,
    assemble_wr_mismatched rfl hd rfl, assemble_wr_mismatched rfl hd rfl⟩

/-! ## Running lines -/

/-- A line that assembles runs its operation, and the lines behind it go on in the state it leaves (R80). -/
theorem runLines_cons {l : Line} {s t : State} {i : Instr} (hl : Assembles l s i) (h : exec i s = .next t) (ls : List Line) :
    runLines s (l :: ls) = runLines t ls := by
  obtain ⟨o, ho, hi⟩ := hl
  simp only [runLines, ho, performOperation, hi, h]

/-- `t` is `s` with `u` as port p's record: the other port is as it was, and nothing more has gone to a serial bus. -/
structure LeavesQuietly (p : PortId) (u : Uart) (s t : State) : Prop where
  uart : t.uart p = u
  other : t.uart p.other = s.uart p.other
  bus : t.outputs.filter toBus = s.outputs.filter toBus

theorem LeavesQuietly.trans {p : PortId} {u v : Uart} {s t t' : State} (h : LeavesQuietly p u s t)
    (h' : LeavesQuietly p v t t') : LeavesQuietly p v s t' :=
  ⟨h'.uart, h'.other.trans h.other, h'.bus.trans h.bus⟩

/-- The DLAB bit that the next line is assembled under (R72, R80). -/
theorem LeavesQuietly.dlab {p : PortId} {u : Uart} {s t : State} (h : LeavesQuietly p u s t) : t.dlab p = dlabOf u.lcr := by
  rw [State.dlab, h.uart]

/-- The operations that emit to a serial bus, and so let a device act inside them (R60). -/
def emitsToBus : Instr → Bool
  | .wrThr _ _ | .wrMcr _ _ => true
  | _ => false

/-- An operation that does not emit to a bus leaves the other port alone (R40). -/
theorem uartAfter_other_of_quiet {i : Instr} {p : PortId} (hport : i.port? = some p) (hquiet : emitsToBus i = false)
    (s : State) : uartAfter i s p.other = s.uart p.other := by
  cases i <;> cases hport <;> cases hquiet <;> simp [uartAfter]

/-- An operation that does not emit to a bus puts nothing on one (R101, R133). -/
theorem exec_toBus_of_quiet {i : Instr} {s t : State} (hquiet : emitsToBus i = false) (h : exec i s = .next t) :
    t.outputs.filter toBus = s.outputs.filter toBus := by
  have hbus := onlyThrAndMcrWritesReachTheBus i s t h
  cases i <;> cases hquiet <;> exact hbus.trans (List.append_nil _)

/-- An operation that does not emit to a bus changes its own port's record and no other. -/
theorem exec_leavesQuietly {i : Instr} {p : PortId} {s t : State} (hport : i.port? = some p) (hquiet : emitsToBus i = false)
    (h : exec i s = .next t) : LeavesQuietly p (uartAfter i s p) s t :=
  ⟨exec_uart h p, (exec_uart h p.other).trans (uartAfter_other_of_quiet hport hquiet s), exec_toBus_of_quiet hquiet h⟩

/-- A line of an operation that does not emit to a bus, in front of others: `u` is what it leaves in its port's record. -/
theorem runLines_cons_quiet {l : Line} {i : Instr} {p : PortId} {s : State} {u : Uart} (hl : Assembles l s i)
    (hport : i.port? = some p) (hquiet : emitsToBus i = false) (hu : uartAfter i s p = u) (ls : List Line) :
    ∃ t, runLines s (l :: ls) = runLines t ls ∧ LeavesQuietly p u s t ∧ t.result = resultAfter i s := by
  obtain ⟨t, ht⟩ := exec_completes i s
  exact ⟨t, runLines_cons hl ht ls, hu ▸ exec_leavesQuietly hport hquiet ht, exec_result ht⟩

/-- Such a line on its own. -/
theorem runLines_line_quiet {l : Line} {i : Instr} {p : PortId} {s : State} {u : Uart} (hl : Assembles l s i)
    (hport : i.port? = some p) (hquiet : emitsToBus i = false) (hu : uartAfter i s p = u) :
    LeavesQuietly p u s (runLines s [l]) := by
  obtain ⟨t, hrun, h, -⟩ := runLines_cons_quiet hl hport hquiet hu []
  exact hrun ▸ h

/-! ## The pseudo-operations -/

/-- Settles O51: the first line sets DLAB, under which the next two write the divisor, and the last line writes LCR. -/
theorem setDivProgramsTheDivisor : Obligations.SetDivProgramsTheDivisor := by
  intro p d l s _
  have hset : dlabOf (l ||| 0x80#8) = true := by simp [dlabOf]
  have lcrLine (b : Byte) (t : State) : Assembles (.wr p (.named .lcr) b) t (.wrLcr p b) := assembles_wr_named rfl rfl rfl
  obtain ⟨t₁, hrun₁, h₁, -⟩ := runLines_cons_quiet (lcrLine (l ||| 0x80#8) s) rfl rfl (if_pos rfl) _
  have dllLine : Assembles (.wr p (.named .dll) (d.extractLsb' 0 8)) t₁ (.wrDll p _) :=
    assembles_wr_named rfl (h₁.dlab.trans hset) rfl
  obtain ⟨t₂, hrun₂, h₂, -⟩ := runLines_cons_quiet dllLine rfl rfl (by rw [uartAfter, if_pos rfl, h₁.uart]) _
  have dlmLine : Assembles (.wr p (.named .dlm) (d.extractLsb' 8 8)) t₂ (.wrDlm p _) :=
    assembles_wr_named rfl (h₂.dlab.trans hset) rfl
  obtain ⟨t₃, hrun₃, h₃, -⟩ := runLines_cons_quiet dlmLine rfl rfl (by rw [uartAfter, if_pos rfl, h₂.uart]) _
  obtain ⟨t₄, hrun₄, h₄, -⟩ := runLines_cons_quiet (lcrLine l t₃) rfl rfl (by rw [uartAfter, if_pos rfl, h₃.uart]) []
  have hrun : runLines s (setDiv p d l) = t₄ := hrun₁.trans (hrun₂.trans (hrun₃.trans hrun₄))
  obtain ⟨huart, hother, hbus⟩ := ((h₁.trans h₂).trans h₃).trans h₄
  rw [hrun]
  exact ⟨huart, hother, hbus⟩

/-- Settles O52: the LSR read leaves LCR alone, so THR can be named, and its write emits the byte and arms the latch. -/
theorem pollTxSendsTheByte : Obligations.PollTxSendsTheByte := by
  intro p b s hd
  have lsrLine : Assembles (.rd p (.named .lsr)) s (.rdLsr p) := assembles_rd_named rfl rfl rfl
  obtain ⟨t, ht⟩ := exec_completes (.rdLsr p) s
  have hleft : LeavesQuietly p (clearErrors (s.uart p)) s t := by
    simpa only [uartAfter, if_true] using exec_leavesQuietly (p := p) rfl rfl ht
  have thrLine : Assembles (.wr p (.named .thr) b) t (.wrThr p b) := assembles_wr_named rfl (hleft.dlab.trans hd) rfl
  obtain ⟨t', ht'⟩ := exec_completes (.wrThr p b) t
  have hrun : runLines s (pollTx p b) = t' := (runLines_cons lsrLine ht _).trans (runLines_cons thrLine ht' [])
  obtain ⟨hthre, -, -⟩ := lsr_constant_bits (s.uart p)
  rw [hrun]
  refine ⟨?_, ?_, t, ht, lsr (s.uart p), exec_result ht, hthre, ?_⟩
  · rw [onlyThrAndMcrWritesReachTheBus _ t t' ht', hleft.bus]
  · rw [exec_uart ht', uartAfter, if_pos rfl]
  · exact (runOps_cons ht' []).symm

/-- What ACKINT does to the port after its IIR read returned `v` (R81): an LSR, RBR or MSR read, or nothing. -/
def ackRestEffect (v : Byte) (u : Uart) : Uart :=
  if v.setWidth 4 == 0x6#4 then clearErrors u
  else if v.setWidth 4 == 0x4#4 then popRx u
  else if v.setWidth 4 == 0x0#4 then { u with msrDelta := 0#4 }
  else u

/-- The rest of ACKINT runs on its own port (R81). -/
theorem ackIntRest_leavesQuietly {p : PortId} {s : State} (hd : s.dlab p = false) (v : Byte) :
    LeavesQuietly p (ackRestEffect v (s.uart p)) s (runLines s (ackIntRest p v)) := by
  unfold ackIntRest ackRestEffect
  split_ifs
  · exact runLines_line_quiet (i := .rdLsr p) (assembles_rd_named rfl rfl rfl) rfl rfl (if_pos rfl)
  · exact runLines_line_quiet (i := .rdRbr p) (assembles_rd_named rfl hd rfl) rfl rfl (if_pos rfl)
  · exact runLines_line_quiet (i := .rdMsr p) (assembles_rd_named rfl rfl rfl) rfl rfl (if_pos rfl)
  · exact ⟨rfl, rfl, rfl⟩

/-- For a received byte, the rest of ACKINT returns it (R81, R100). -/
theorem ackIntRest_result_of_rda {p : PortId} {s : State} (hd : s.dlab p = false) {v : Byte} (hv : v.setWidth 4 = 0x4#4) :
    (runLines s (ackIntRest p v)).result = some (rbrValue (s.uart p)) := by
  have hrest : ackIntRest p v = [.rd p (.named .rbr)] := by simp [ackIntRest, hv]
  have rbrLine : Assembles (.rd p (.named .rbr)) s (.rdRbr p) := assembles_rd_named rfl hd rfl
  obtain ⟨t, hrun, -, hresult⟩ := runLines_cons_quiet rbrLine rfl rfl (if_pos rfl) []
  rw [hrest, hrun]
  exact hresult

/-- IIR reports received data only while a byte is waiting (R110). -/
theorem rxq_of_iir {u : Uart} (h : lowNibble (iir u) = 0x4#4) : ∃ v q, u.rxq = v :: q := by
  rw [iir_lowNibble] at h
  rcases iirId_cases u with ⟨-, e⟩ | ⟨-, hrda, -⟩ | ⟨-, -, -, e⟩ | ⟨-, -, -, -, e⟩ | ⟨-, -, -, -, e⟩
  case inr.inl =>
    have hready : dataReady u = true := (Bool.and_eq_true_iff.mp hrda).2
    exact List.exists_cons_of_length_pos (of_decide_eq_true hready)
  all_goals rw [e] at h; exact absurd h (by decide)

/-- Settles O53: the IIR read takes the THRE latch away if it reports it, and the read it calls for takes away the source
reported otherwise. -/
theorem ackIntServesTheReportedSource : Obligations.AckIntServesTheReportedSource := by
  intro p s hd u id t
  have iirLine : Assembles (.rd p (.named .iir)) s (.rdIir p) := assembles_rd_named rfl rfl rfl
  obtain ⟨t₁, hrun, h₁, -⟩ := runLines_cons_quiet iirLine rfl rfl (if_pos rfl) (ackIntRest p (iir u))
  have hlcr : (ackIir (iir u) u).lcr = u.lcr := by rw [ackIir]; split <;> rfl
  have hd₁ : t₁.dlab p = false := h₁.dlab.trans (hlcr ▸ hd)
  have hleft : LeavesQuietly p (ackRestEffect (iir u) (ackIir (iir u) u)) s t := by
    have h₂ := ackIntRest_leavesQuietly hd₁ (iir u)
    rw [h₁.uart, ← hrun] at h₂
    exact h₁.trans h₂
  have nibble {n : Nibble} (h : id = n) : (iir u).setWidth 4 = n := (lowNibble_eq_extract (iir u)).trans h
  have latchKept {n : Nibble} (h : id = n) (hn : n ≠ 0x2#4) : ackIir (iir u) u = u :=
    ackIir_of_ne (fun hthre => hn ((nibble h).symm.trans hthre)) u
  refine ⟨fun h => ?rls, fun h => ?rda, fun h => ?thre, fun h => ?modem, fun h => ?nothing, hleft.other, hleft.bus⟩
  case rls =>
    rw [hleft.uart, latchKept h (by decide)]
    simp [ackRestEffect, nibble h, clearErrors]
  case rda =>
    obtain ⟨v, q, hq⟩ := rxq_of_iir (nibble h)
    obtain ⟨hpop, hvalue⟩ := popRx_of_cons hq
    refine ⟨v, q, hq, ?_, ?_⟩
    · rw [hleft.uart, latchKept h (by decide), ← hpop]
      simp [ackRestEffect, nibble h]
    · have hresult := ackIntRest_result_of_rda hd₁ (nibble h)
      rwa [h₁.uart, ← hrun, latchKept h (by decide), hvalue] at hresult
  case thre =>
    rw [hleft.uart]
    simp [ackRestEffect, nibble h, ackIir, lowNibble]
  case modem =>
    rw [hleft.uart, latchKept h (by decide)]
    simp [ackRestEffect, nibble h]
  case nothing =>
    rw [hleft.uart, latchKept h (by decide)]
    simp [ackRestEffect, nibble h]

end Sys2Proof.Machine
end

section
/-! SUPPORT. The proofs of the statements of 40_dlab_registers.md: the registers at offsets 0 and 1, after the facts they
rest on: what an operation leaves, in the terms of `LeavesPort`, and what the state inside a THR write is. -/

namespace Sys2Proof.Machine

/-! ## The keys of offsets 0 and 1 -/

/-- With one key, an encoding is what that key decodes to. -/
theorem encodedBy_singleton {k : BitVec 7} {p : PortId} {b : Byte} {i : Instr} (h : decodeOp ⟨k, p, b⟩ = .ok i) :
    EncodedBy [k] p b i := List.forall_mem_singleton.mpr h

/-! ## What an operation leaves -/

/-- An operation that ends by changing port p's record by `f` and returning `r` leaves what `LeavesPort` fixes (R155). -/
theorem leavesPort_finish_update (s : State) (p : PortId) (f : Uart → Uart) (r : Option Byte) :
    LeavesPort s p (f (s.uart p)) r [] (finish r (s.update p f)) := by
  refine ⟨?_, ?_, rfl, ?_, rfl, ?_, ?_, ?_⟩ <;> simp [irqOutput]

/-- What was returned before an operation does not count for what it leaves. -/
theorem leavesPort_with_result {s t : State} {p : PortId} {u : Uart} {r : Option Byte} {es : List Output}
    (h : LeavesPort s p u r es t) (before : Option Byte) : LeavesPort { s with result := before } p u r es t := by
  simpa only [LeavesPort, SameSurroundings, uart_with_result] using h

/-- An operation that does not emit to a bus puts out the interrupt re-evaluation only (R155). -/
theorem exec_outputs_of_quiet {i : Instr} {p : PortId} {s t : State} (hport : i.port? = some p)
    (hquiet : emitsToBus i = false) (h : exec i s = .next t) : t.outputs = s.outputs ++ [irqOutput t] := by
  cases i <;> cases hport <;> cases hquiet <;> injection h with h <;> subst h
  case evRx | evMstat => exact congrArg (· ++ [_]) (State.update_outputs s p _)
  all_goals simp [irqOutput]

/-- An operation that does not emit to a bus completes, leaves its port's record and its result as given, and changes
nothing else. -/
theorem completesWith_of_quiet {i : Instr} {p : PortId} {s : State} {u : Uart} {r : Option Byte}
    (hport : i.port? = some p) (hquiet : emitsToBus i = false) (hu : uartAfter i s p = u) (hr : resultAfter i s = r) :
    CompletesWith i s p u r [] := by
  obtain ⟨t, h⟩ := exec_completes i s
  have houtputs : t.outputs = s.outputs ++ [] ++ [irqOutput t] := by
    rw [List.append_nil, exec_outputs_of_quiet hport hquiet h]
  have hreactions : t.reactions = s.reactions := by
    rw [exec_reactions_eq h]
    cases i <;> cases hquiet <;> rfl
  obtain ⟨huart, hother, -⟩ := exec_leavesQuietly hport hquiet h
  exact ⟨t, h, huart.trans hu, hother, (exec_result h).trans hr, houtputs, exec_fiqCurrent h, hreactions,
    exec_surroundings h⟩

/-! ## The state inside an emit to the bus

`afterReaction` runs a device's events as operations of their own; `emitToBus` applies them inside the operation that
emits. The two differ only in that an operation of its own clears the result. -/

/-- Device events do not read what was returned before. -/
theorem deviceEvents_with_result (es : List DeviceEvent) (s : State) (r : Option Byte) :
    es.foldl deviceEvent { s with result := r } = { es.foldl deviceEvent s with result := r } := by
  induction es generalizing s with
  | nil => rfl
  | cons e es ih =>
    have he : deviceEvent { s with result := r } e = { deviceEvent s e with result := r } := by
      rw [deviceEvent_eq, deviceEvent_eq]
      cases eventPort e <;> rfl
    rw [List.foldl_cons, List.foldl_cons, he, ih]

/-- A device event as an operation of its own returns nothing, and does what it does nested (R60). -/
theorem exec_deviceEvent (e : DeviceEvent) (s : State) :
    exec e.instr s = .next { deviceEvent s e with result := none } := by
  cases e <;> rfl

/-- A run of device events does what they do nested, up to the result (R60). -/
theorem runOps_deviceEvents (es : List DeviceEvent) (s : State) :
    ∃ r, runOps s (es.map DeviceEvent.instr) = { es.foldl deviceEvent s with result := r } := by
  induction es generalizing s with
  | nil => exact ⟨s.result, rfl⟩
  | cons e es ih =>
    obtain ⟨r, hr⟩ := ih { deviceEvent s e with result := none }
    refine ⟨r, ?_⟩
    rw [List.map_cons, runOps_cons (exec_deviceEvent e s), hr, deviceEvents_with_result]
    rfl

/-- The state after the reaction is the one in which the emitting operation goes on, up to the result (R60). -/
theorem afterReaction_eq_emitToBus (o : Output) (s : State) :
    ∃ r, afterReaction o s = { emitToBus o s with result := r } := by
  rcases emitToBus_cases o s with ⟨hr, e⟩ | ⟨es, later, hr, e⟩ <;> simp only [afterReaction, hr, e]
  · exact ⟨s.result, by rw [← hr]; rfl⟩
  · exact runOps_deviceEvents es { s.emit o with reactions := later }

/-- An operation that emits to the bus, then changes port p's record by `f` and returns `r`, leaves from the state after
the reaction what `LeavesPort` fixes (R60, R155). -/
theorem leavesPort_finish_emitToBus (o : Output) (s : State) (p : PortId) (f : Uart → Uart) (r : Option Byte) :
    LeavesPort (afterReaction o s) p (f ((afterReaction o s).uart p)) r [] (finish r ((emitToBus o s).update p f)) := by
  obtain ⟨before, e⟩ := afterReaction_eq_emitToBus o s
  rw [e, uart_with_result]
  exact leavesPort_with_result (leavesPort_finish_update (emitToBus o s) p f r) before

/-! ## RBR and THR -/

/-- Settles O13: the record that the reaction leaves gets the THRE latch set, and the operation ends. -/
theorem writeThrEmitsThenArmsThre : Obligations.WriteThrEmitsThenArmsThre := fun p b s =>
  ⟨encodedBy_singleton (decodeOp_hostWrite p b false 0#3), _, rfl, leavesPort_finish_emitToBus (.tx p b) s p _ none⟩

/-- Settles O12: the read takes the head of the queue off, if there is one. -/
theorem readRbrTakesTheOldestByte : Obligations.ReadRbrTakesTheOldestByte := by
  intro p b s
  have huart : uartAfter (.rdRbr p) s p = popRx (s.uart p) := if_pos rfl
  refine ⟨encodedBy_singleton (decodeOp_hostRead p b false 0#3), fun v q hq => ?cons, fun hq => ?nil⟩
  case cons =>
    obtain ⟨hpop, hvalue⟩ := popRx_of_cons hq
    exact completesWith_of_quiet rfl rfl (huart.trans hpop) (congrArg some hvalue)
  case nil =>
    obtain ⟨hpop, hvalue⟩ := popRx_of_nil hq
    exact completesWith_of_quiet rfl rfl (huart.trans hpop) (congrArg some hvalue)

/-! ## The divisor latch -/

/-- Settles O14: the reads return the latch bytes, and each write sets its own. -/
theorem divisorLatchReadsAndWrites : Obligations.DivisorLatchReadsAndWrites := fun p b _ =>
  ⟨encodedBy_singleton (decodeOp_hostRead p b true 0#3), encodedBy_singleton (decodeOp_hostWrite p b true 0#3),
    encodedBy_singleton (decodeOp_hostRead p b true 1#3), encodedBy_singleton (decodeOp_hostWrite p b true 1#3),
    completesWith_of_quiet rfl rfl rfl rfl, completesWith_of_quiet rfl rfl (if_pos rfl) rfl,
    completesWith_of_quiet rfl rfl rfl rfl, completesWith_of_quiet rfl rfl (if_pos rfl) rfl⟩

/-- A DLL, DLM or LCR write leaves what an RBR and an IER read return (R107, R121). -/
theorem rbr_ier_of_divisor_write {p : PortId} {b : Byte} {i : Instr} (hi : i = .wrDll p b ∨ i = .wrDlm p b ∨ i = .wrLcr p b)
    (s : State) : rbrValue (uartAfter i s p) = rbrValue (s.uart p) ∧ (uartAfter i s p).ier = (s.uart p).ier := by
  rcases hi with rfl | rfl | rfl <;> rw [uartAfter, if_pos rfl] <;> exact ⟨rfl, rfl⟩

/-- An operation completes from any two states, and returns the same where what it returns is the same. -/
theorem exec_same_result {i : Instr} {s t : State} (h : resultAfter i t = resultAfter i s) :
    ∃ before after, exec i s = .next before ∧ exec i t = .next after ∧ after.result = before.result := by
  obtain ⟨before, hbefore⟩ := exec_completes i s
  obtain ⟨after, hafter⟩ := exec_completes i t
  exact ⟨before, after, hbefore, hafter, by rw [exec_result hafter, exec_result hbefore, h]⟩

/-- Settles O17: RBR is read from the queue and the last byte, IER from its own field; none of the writes reaches them. -/
theorem divisorNeverShowsThroughRbrOrIer : Obligations.DivisorNeverShowsThroughRbrOrIer := by
  intro p b i s t hi h
  obtain ⟨hrbr, hier⟩ := rbr_ier_of_divisor_write hi s
  rw [← exec_uart h] at hrbr hier
  exact ⟨exec_same_result (congrArg some hrbr), exec_same_result (congrArg (fun n : Nibble => some (n.setWidth 8)) hier)⟩

/-! ## IER -/

/-- Settles O15: the zero extension of the field is the field below four zero bits. -/
theorem readIerZeroExtends : Obligations.ReadIerZeroExtends := fun p b s =>
  ⟨encodedBy_singleton (decodeOp_hostRead p b false 1#3),
    completesWith_of_quiet rfl rfl rfl (congrArg some (BitVec.setWidth_eq_append (x := (s.uart p).ier) (by decide)))⟩

/-- An IER write, with LSR[5] at its constant value 1: the latch is kept or takes the new ETBEI (R105, R37 a). -/
theorem writeIer_eq (b : Byte) (u : Uart) :
    writeIer b u =
      { u with
        ier := b.extractLsb' 0 4
        threPending := if u.ier[1] = b[1] then u.threPending else b[1] } := by
  obtain ⟨hthre, -, -⟩ := lsr_constant_bits u
  have hlatch : (if u.ier[1] != b[1] then b[1] && (lsr u)[5] else u.threPending) =
      if u.ier[1] = b[1] then u.threPending else b[1] := by
    by_cases hsame : u.ier[1] = b[1] <;> simp [hsame, hthre]
  rw [writeIer, hlatch, lowNibble_eq_extract]

/-- Settles O16: the write is `writeIer` on its own port. -/
theorem writeIerArmsThreOnEtbeiChange : Obligations.WriteIerArmsThreOnEtbeiChange := fun p b s =>
  have huart : uartAfter (.wrIer p b) s p = writeIer b (s.uart p) := if_pos rfl
  ⟨encodedBy_singleton (decodeOp_hostWrite p b false 1#3),
    completesWith_of_quiet rfl rfl (huart.trans (writeIer_eq b (s.uart p))) rfl⟩

end Sys2Proof.Machine
end

section
/-! SUPPORT. The proofs of the statements of 41_iir_fcr.md: the interrupt encoder, and the IIR read and FCR write at offset 2,
after the facts they rest on. -/

namespace Sys2Proof.Machine

/-! ## The keys of an offset that DLAB does not gate -/

/-- With two keys, an encoding is what each of them decodes to. -/
theorem encodedBy_pair {k₁ k₂ : BitVec 7} {p : PortId} {b : Byte} {i : Instr} (h₁ : decodeOp ⟨k₁, p, b⟩ = .ok i)
    (h₂ : decodeOp ⟨k₂, p, b⟩ = .ok i) : EncodedBy [k₁, k₂] p b i :=
  List.forall_mem_cons.mpr ⟨h₁, encodedBy_singleton h₂⟩

/-! ## The four enabled sources, from the fields of the record -/

/-- RLS: ELSI, and one of the four error bits (R110). -/
theorem rlsHolds_iff (u : Uart) :
    rlsHolds u = true ↔ u.ier[2] = true ∧ (u.oe = true ∨ u.pe = true ∨ u.fe = true ∨ u.bi = true) := by
  simp only [rlsHolds, lineError, Bool.and_eq_true, Bool.or_eq_true, or_assoc]

/-- RDA: ERBFI, and a byte waiting, whatever the trigger level (R110). -/
theorem rdaHolds_iff (u : Uart) : rdaHolds u = true ↔ u.ier[0] = true ∧ u.rxq ≠ [] := by
  simp only [rdaHolds, dataReady, Bool.and_eq_true, decide_eq_true_eq, List.length_pos_iff]

/-- THRE: ETBEI, and the latch; LSR[5] is constant 1 (R110, R37 a). -/
theorem threHolds_iff (u : Uart) : threHolds u = true ↔ u.ier[1] = true ∧ u.threPending = true := by
  obtain ⟨hthre, -, -⟩ := lsr_constant_bits u
  simp only [threHolds, hthre, Bool.and_true, Bool.and_eq_true]

/-- MODEM: EDSSI, and a delta bit (R110). -/
theorem modemHolds_iff (u : Uart) : modemHolds u = true ↔ u.ier[3] = true ∧ u.msrDelta ≠ 0#4 := by
  simp only [modemHolds, Bool.and_eq_true, bne_iff_ne]

/-! ## The encoder -/

/-- Settles O18: the cases are the branches of the encoder, each source read from its fields. -/
theorem iirIsThePriorityEncoder : Obligations.IirIsThePriorityEncoder := by
  intro u fifo rls rda thre modem
  have hiir {id : Byte} (h : iirId u = id) : iir u = fifo ||| id := congrArg (fifo ||| ·) h
  have hrls : rlsHolds u = true ↔ rls := rlsHolds_iff u
  have hrda : rdaHolds u = true ↔ rda := rdaHolds_iff u
  have hthre : threHolds u = true ↔ thre := threHolds_iff u
  have hmodem : modemHolds u = true ↔ modem := modemHolds_iff u
  rw [← hrls, ← hrda, ← hthre, ← hmodem]
  refine ⟨fun h => hiir ?rls, fun ⟨h₁, h⟩ => hiir ?rda, fun ⟨h₁, h₂, h⟩ => hiir ?thre,
    fun ⟨h₁, h₂, h₃, h⟩ => hiir ?modem, fun ⟨h₁, h₂, h₃, h₄⟩ => hiir ?nothing⟩ <;> unfold iirId
  case rls => rw [if_pos h]
  case rda => rw [if_neg h₁, if_pos h]
  case thre => rw [if_neg h₁, if_neg h₂, if_pos h]
  case modem => rw [if_neg h₁, if_neg h₂, if_neg h₃, if_pos h]
  case nothing => rw [if_neg h₁, if_neg h₂, if_neg h₃, if_neg h₄]

/-- The encoder's value is one of five codes, as it is or with the FIFO bits (R110). -/
theorem iir_mem (u : Uart) :
    iir u ∈ [0x01#8, 0x06#8, 0x04#8, 0x02#8, 0x00#8, 0xC1#8, 0xC6#8, 0xC4#8, 0xC2#8, 0xC0#8] := by
  unfold iir
  rcases iirId_cases u with ⟨-, e⟩ | ⟨-, -, e⟩ | ⟨-, -, -, e⟩ | ⟨-, -, -, -, e⟩ | ⟨-, -, -, -, e⟩ <;> rw [e] <;>
    cases u.fcrFe <;> decide

/-- A port with the condition of every source pending, so that IER alone says which source IIR reports. -/
def allPending (fifo : Bool) (ier : Nibble) : Uart :=
  { Uart.reset with fcrFe := fifo, ier, oe := true, rxq := [0x41#8], threPending := true, msrDelta := 0x1#4 }

/-- IIR of such ports, without the FIFO bits and with them: no source enabled, then RLS, RDA, THRE and MODEM (R110). -/
theorem iir_allPending :
    [false, true].flatMap (fun fifo => [0x0#4, 0x4#4, 0x1#4, 0x2#4, 0x8#4].map fun ier => iir (allPending fifo ier)) =
      [0x01#8, 0x06#8, 0x04#8, 0x02#8, 0x00#8, 0xC1#8, 0xC6#8, 0xC4#8, 0xC2#8, 0xC0#8] := by
  decide

/-- Settles O19: the encoder has no other value, and a port with every condition pending has each of the ten, by enabling
at most one source. -/
theorem iirTakesTenValues : Obligations.IirTakesTenValues := by
  refine fun v => ⟨fun ⟨u, hu⟩ => hu ▸ iir_mem u, fun hv => ?_⟩
  rw [← iir_allPending, List.mem_flatMap] at hv
  obtain ⟨fifo, -, hv⟩ := hv
  obtain ⟨ier, -, h⟩ := List.mem_map.mp hv
  exact ⟨allPending fifo ier, h⟩

/-! ## The IIR read -/

/-- An IIR read takes the THRE latch away when THRE is what it reports, and nothing else (R111). -/
theorem ackIir_eq (v : Byte) (u : Uart) :
    ackIir v u = if v.extractLsb' 0 4 = 0x2#4 then { u with threPending := false } else u := by
  simp only [ackIir, lowNibble_eq_extract, beq_iff_eq]

/-- Settles O20: the read is `ackIir` of the value it returns, on its own port. -/
theorem readIirAcknowledgesThre : Obligations.ReadIirAcknowledgesThre := fun p b s =>
  have huart : uartAfter (.rdIir p) s p = ackIir (iir (s.uart p)) (s.uart p) := if_pos rfl
  ⟨encodedBy_pair (decodeOp_hostRead p b false 2#3) (decodeOp_hostRead p b true 2#3),
    completesWith_of_quiet rfl rfl (huart.trans (ackIir_eq _ _)) rfl⟩

/-! ## The FCR write -/

/-- Without bit 0, an FCR write leaves FIFO mode and programs nothing else (R112). -/
theorem writeFcr_of_disable {b : Byte} (h : b[0] = false) (u : Uart) :
    writeFcr b u = { u with rxq := if u.fcrFe = true then [] else u.rxq, fcrFe := false } := by
  simp [writeFcr, h]

/-- With bit 0, an FCR write enters FIFO mode, and empties the queue on entry or on bit 1 (R112). -/
theorem writeFcr_of_enable {b : Byte} (h : b[0] = true) (u : Uart) :
    writeFcr b u =
      { u with
        rxq := if u.fcrFe = false ∨ b[1] = true then [] else u.rxq
        fcrFe := true
        fcrDma := b[3]
        fcrTrig := b.extractLsb' 6 2 } := by
  simp [writeFcr, h, fcrTrigBits]

/-- Settles O21: the write is `writeFcr` on its own port, and bit 0 chooses its branch. -/
theorem writeFcrProgramsTheFifo : Obligations.WriteFcrProgramsTheFifo := fun p b s =>
  have huart : uartAfter (.wrFcr p b) s p = writeFcr b (s.uart p) := if_pos rfl
  ⟨encodedBy_pair (decodeOp_hostWrite p b false 2#3) (decodeOp_hostWrite p b true 2#3),
    fun h => completesWith_of_quiet rfl rfl (huart.trans (writeFcr_of_disable h _)) rfl,
    fun h => completesWith_of_quiet rfl rfl (huart.trans (writeFcr_of_enable h _)) rfl⟩

end Sys2Proof.Machine
end

section
/-! SUPPORT. The proofs of the statements of 42_line_registers.md: the registers at offsets 3, 5 and 7, after the keys of
the offsets that DLAB does not gate. -/

namespace Sys2Proof.Machine

/-! ## The keys of an offset where DLAB selects nothing -/

/-- A read that is the same under both DLAB values has both keys of its offset (R72, R73). -/
theorem encodedBy_ungatedRead {p : PortId} {off : Offset} {i : Instr} (h : ∀ d, readAt p d off = i) (b : Byte) :
    EncodedBy [hostKey false false off, hostKey false true off] p b i :=
  have key (d : Bool) : decodeOp ⟨hostKey false d off, p, b⟩ = .ok i :=
    (decodeOp_hostRead p b d off).trans (congrArg Except.ok (h d))
  encodedBy_pair (key false) (key true)

/-- A write that is the same under both DLAB values has both keys of its offset (R72, R73). -/
theorem encodedBy_ungatedWrite {p : PortId} {off : Offset} {b : Byte} {i : Instr} (h : ∀ d, writeAt p d off b = i) :
    EncodedBy [hostKey true false off, hostKey true true off] p b i :=
  have key (d : Bool) : decodeOp ⟨hostKey true d off, p, b⟩ = .ok i :=
    (decodeOp_hostWrite p b d off).trans (congrArg Except.ok (h d))
  encodedBy_pair (key false) (key true)

/-! ## LCR and SCR -/

/-- Settles O22: the reads leave the record and return the register, and each write sets its own register only. -/
theorem lcrAndScrReadAndWriteWhole : Obligations.LcrAndScrReadAndWriteWhole := by
  intro p b s
  have hlcr : uartAfter (.wrLcr p b) s p = { s.uart p with lcr := b } := if_pos rfl
  have hscr : uartAfter (.wrScr p b) s p = { s.uart p with scr := b } := if_pos rfl
  exact ⟨encodedBy_ungatedRead (off := 3#3) (fun _ => rfl) b, encodedBy_ungatedWrite (off := 3#3) fun _ => rfl,
    encodedBy_ungatedRead (off := 7#3) (fun _ => rfl) b, encodedBy_ungatedWrite (off := 7#3) fun _ => rfl,
    completesWith_of_quiet rfl rfl rfl rfl, completesWith_of_quiet rfl rfl hlcr rfl,
    completesWith_of_quiet rfl rfl rfl rfl, completesWith_of_quiet rfl rfl hscr rfl⟩

/-! ## LSR -/

/-- Settles O24: the read is `clearErrors` on its own port and returns the view from before it; the write leaves the
record. -/
theorem lsrReadClearsErrorsWriteIgnored : Obligations.LsrReadClearsErrorsWriteIgnored := by
  intro p b s
  have hread : uartAfter (.rdLsr p) s p = clearErrors (s.uart p) := if_pos rfl
  exact ⟨encodedBy_ungatedRead (off := 5#3) (fun _ => rfl) b, encodedBy_ungatedWrite (off := 5#3) fun _ => rfl,
    completesWith_of_quiet rfl rfl hread rfl, completesWith_of_quiet rfl rfl rfl rfl⟩

end Sys2Proof.Machine
end

section
/-! SUPPORT. The proofs of the statements of 43_modem_registers.md: the registers at offsets 4 and 6, after what the loopback
leaves in a record. -/

namespace Sys2Proof.Machine

/-! ## The loopback -/

/-- With bit 4, an MCR write is a status change to the loopback nibble, whose deltas accumulate; without it, the record stays
(R130, R133). -/
theorem loopback_eq (b : Byte) (u : Uart) :
    loopback b u =
      if b[4] = true then
        { u with
          msrDelta := u.msrDelta ||| (u.msrStatus ^^^ loopNibble b)
          msrStatus := loopNibble b }
      else u := by
  simp only [loopback, statusUpdate, Config.loopbackDeltas, if_true]

/-- CTS is RTS, DSR is DTR, RI is OUT1 and DCD is OUT2 (R131). -/
theorem loopNibble_bits (b : Byte) :
    (loopNibble b)[0] = b[1] ∧ (loopNibble b)[1] = b[0] ∧ (loopNibble b)[2] = b[2] ∧ (loopNibble b)[3] = b[3] := by
  simp only [← BitVec.getLsbD_eq_getElem, loopNibble, BitVec.getLsbD_append]
  simp

/-! ## MCR -/

/-- The field that an MCR write stores is bits 4:0 (R133). -/
theorem mcrBits_eq_extract (b : Byte) : mcrBits b = b.extractLsb' 0 5 :=
  BitVec.setWidth_eq_extractLsb' (by decide)

/-- Settles O26: the record that the reaction leaves goes through `loopback`, whatever the reaction was. -/
theorem writeMcrEmitsThenLoopsBack : Obligations.WriteMcrEmitsThenLoopsBack := by
  intro p b s stored m n
  have hleft := leavesPort_finish_emitToBus (.ctrl p (lowNibble b)) stored p (loopback b) none
  rw [loopback_eq, lowNibble_eq_extract] at hleft
  refine ⟨encodedBy_ungatedWrite (off := 4#3) fun _ => rfl, _, rfl, ?_⟩
  rw [State.update, mcrBits_eq_extract, lowNibble_eq_extract]
  exact hleft

/-- Settles O45: the loopback comes after the nested events, so what they left of the status nibble is gone. -/
theorem loopbackOverridesTheDevice : Obligations.LoopbackOverridesTheDevice := by
  intro p b s t hloop h
  have hstatus : (t.uart p).msrStatus = loopNibble b := by
    rw [exec_uart h, uartAfter, if_pos rfl, loopback_eq, if_pos hloop]
  rw [hstatus]
  exact loopNibble_bits b

/-- Settles O25: the zero extension of the field is the field below three zero bits. -/
theorem readMcrZeroExtends : Obligations.ReadMcrZeroExtends := fun p b s =>
  ⟨encodedBy_ungatedRead (off := 4#3) (fun _ => rfl) b,
    completesWith_of_quiet rfl rfl rfl (congrArg some (BitVec.setWidth_eq_append (x := (s.uart p).mcr) (by decide)))⟩

/-! ## MSR -/

/-- The view is the status nibble shifted above the delta nibble (R32). -/
theorem msr_eq_shiftLeft_or (u : Uart) : msr u = u.msrStatus.setWidth 8 <<< 4 ||| u.msrDelta.setWidth 8 := by
  rw [msr, ← BitVec.setWidth_append_eq_shiftLeft_setWidth_or, BitVec.setWidth_eq]

/-- Settles O27: the read clears the delta bits of its own port and returns the view from before it; the write leaves the
record. -/
theorem msrReadClearsDeltasWriteIgnored : Obligations.MsrReadClearsDeltasWriteIgnored := by
  intro p b s
  have hread : uartAfter (.rdMsr p) s p = { s.uart p with msrDelta := 0#4 } := if_pos rfl
  exact ⟨encodedBy_ungatedRead (off := 6#3) (fun _ => rfl) b, encodedBy_ungatedWrite (off := 6#3) fun _ => rfl,
    completesWith_of_quiet rfl rfl hread (congrArg some (msr_eq_shiftLeft_or _)), completesWith_of_quiet rfl rfl rfl rfl⟩

end Sys2Proof.Machine
end

section
/-! SUPPORT. The proofs of the statements of 44_device_events.md: a received byte and a modem-status change, after what each
leaves in a record. -/

namespace Sys2Proof.Machine

/-! ## A received byte -/

/-- With room in the queue, the byte joins its end (R140). -/
theorem pushRx_of_room {u : Uart} (hroom : u.rxq.length < rxCap u) (b : Byte) :
    pushRx b u = { u with rxq := u.rxq ++ [b] } := if_pos hroom

/-- A full FIFO loses the byte, with OE (R140). -/
theorem pushRx_of_full_fifo {u : Uart} (hfe : u.fcrFe = true) (hfull : 16 ≤ u.rxq.length) (b : Byte) :
    pushRx b u = { u with oe := true } := by
  have hcap : rxCap u = 16 := if_pos hfe
  rw [pushRx, hcap, if_neg (Nat.not_lt.mpr hfull), if_pos hfe]

/-- An occupied holding register is overwritten, with OE (R140). -/
theorem pushRx_of_occupied_register {u : Uart} (hfe : u.fcrFe = false) (hfull : 1 ≤ u.rxq.length) (b : Byte) :
    pushRx b u = { u with rxq := [b], oe := true } := by
  have hoff : ¬u.fcrFe = true := ne_true_of_eq_false hfe
  have hcap : rxCap u = 1 := if_neg hoff
  rw [pushRx, hcap, if_neg (Nat.not_lt.mpr hfull), if_neg hoff]

/-- Settles O28: the event is `pushRx` on its own port, and the mode and the length of the queue choose its branch. -/
theorem receivedByteQueuesOrOverruns : Obligations.ReceivedByteQueuesOrOverruns := fun p b s =>
  have huart : uartAfter (.evRx p b) s p = pushRx b (s.uart p) := if_pos rfl
  ⟨encodedBy_singleton (decodeOp_evRx p b),
    fun hroom => completesWith_of_quiet rfl rfl (huart.trans (pushRx_of_room hroom b)) rfl,
    fun hfe hfull => completesWith_of_quiet rfl rfl (huart.trans (pushRx_of_full_fifo hfe hfull b)) rfl,
    fun hfe hfull => completesWith_of_quiet rfl rfl (huart.trans (pushRx_of_occupied_register hfe hfull b)) rfl⟩

/-! ## A modem-status change -/

/-- A status change that counts its deltas adds the changed inputs to those already reported (R130). -/
theorem statusUpdate_accumulates (n : Nibble) (u : Uart) :
    statusUpdate n true u =
      { u with
        msrStatus := n
        msrDelta := u.msrDelta ||| (u.msrStatus ^^^ n) } := rfl

/-- Settles O29: the event is `statusUpdate` to the high nibble on its own port, with deltas. -/
theorem modemStatusAccumulatesChanges : Obligations.ModemStatusAccumulatesChanges := fun p st s =>
  have huart : uartAfter (.evMstat p st) s p = statusUpdate (highNibble st) true (s.uart p) := if_pos rfl
  ⟨encodedBy_singleton (decodeOp_evMstat p st),
    completesWith_of_quiet rfl rfl (huart.trans (statusUpdate_accumulates _ _)) rfl⟩

end Sys2Proof.Machine
end

section
/-! SUPPORT. The proofs of the statements of 60_exceptions.md: the interrupt output and its re-evaluation, and what sets and
clears each pending condition of R153, after what each change of a port record does to the conditions. -/

namespace Sys2Proof.Machine

/-! ## The interrupt output -/

/-- The FIFO bits of IIR do not reach its bit 0 (R110). -/
theorem iir_bit_zero (u : Uart) : (iir u)[0] = (iirId u)[0] := by
  cases hfe : u.fcrFe <;> simp [iir, hfe]

/-- The output is 1 exactly when the encoder has a source to report (R110, R154). -/
theorem intOut_iff (u : Uart) :
    intOut u = true ↔ rlsHolds u = true ∨ rdaHolds u = true ∨ threHolds u = true ∨ modemHolds u = true := by
  rw [intOut, iir_bit_zero]
  rcases iirId_cases u with ⟨h, e⟩ | ⟨-, h, e⟩ | ⟨-, -, h, e⟩ | ⟨-, -, -, h, e⟩ | ⟨h₁, h₂, h₃, h₄, e⟩ <;> rw [e]
  case inr.inr.inr.inr => simp [h₁, h₂, h₃, h₄]
  all_goals simp [h]

/-- Settles O34: the encoder reports nothing only when none of the four sources holds, each read from its fields. -/
theorem interruptOutputIsTheEnabledSources : Obligations.InterruptOutputIsTheEnabledSources := by
  intro u
  rw [intOut_iff, rlsHolds_iff, rdaHolds_iff, threHolds_iff, modemHolds_iff, List.length_pos_iff]

/-- Settles O33: `irqUpdate` sets those two fields, and every operation ends with it. -/
theorem irqUpdateDrivesTheSerialBit : Obligations.IrqUpdateDrivesTheSerialBit :=
  ⟨fun _ => rfl, fun _ _ _ h => exec_ends_with_irqUpdate h⟩

/-! ## The pending conditions -/

/-- The conditions of the table of R153, with the four error bits apart. -/
inductive Pending where
  | oe | pe | fe | bi | dr | thre | delta

/-- A port has the condition pending. -/
def Pending.holds (u : Uart) : Pending → Prop
  | .oe => u.oe = true
  | .pe => u.pe = true
  | .fe => u.fe = true
  | .bi => u.bi = true
  | .dr => u.rxq ≠ []
  | .thre => u.threPending = true
  | .delta => u.msrDelta ≠ 0#4

/-- The four conditions that are an LSR error bit. -/
def Pending.isError (c : Pending) : Prop := c = .oe ∨ c = .pe ∨ c = .fe ∨ c = .bi

/-! ### What each change of a port record does to them

A change takes a condition away (`∧ ¬`), raises it (`∨`), or does both to the THRE latch; the right side says when. -/

/-- Nothing is pending after reset (R170). -/
theorem Pending.not_holds_reset (c : Pending) : ¬c.holds Uart.reset := by
  cases c <;> simp [holds, Uart.reset]

/-- A change of a record that leaves the fields the conditions are read from. -/
theorem Pending.holds_congr {u v : Uart} (h : (v.oe, v.pe, v.fe, v.bi, v.rxq, v.threPending, v.msrDelta) =
    (u.oe, u.pe, u.fe, u.bi, u.rxq, u.threPending, u.msrDelta)) (c : Pending) : c.holds v ↔ c.holds u := by
  simp only [Prod.mk.injEq] at h
  obtain ⟨hoe, hpe, hfe, hbi, hrxq, hthre, hdelta⟩ := h
  cases c <;> simp only [holds, *]

/-- An RBR read takes DR away with the last byte (R100). -/
theorem Pending.holds_popRx (c : Pending) (u : Uart) :
    c.holds (popRx u) ↔ c.holds u ∧ ¬(c = .dr ∧ u.rxq.length = 1) := by
  cases hq : u.rxq with
  | nil => simp [(popRx_of_nil hq).1]
  | cons v q =>
    rw [(popRx_of_cons hq).1]
    cases c
    case dr => simp [holds, hq]
    all_goals simp [holds]

/-- An IIR read takes the THRE latch away when it reports THRE (R111). -/
theorem Pending.holds_ackIir (c : Pending) (v : Byte) (u : Uart) :
    c.holds (ackIir v u) ↔ c.holds u ∧ ¬(c = .thre ∧ v.extractLsb' 0 4 = 0x2#4) := by
  rw [ackIir_eq]
  split
  case isTrue h => cases c <;> simp [holds, h]
  case isFalse h => simp [h]

/-- An FCR write takes DR away when it changes the FIFO mode or resets the receiver FIFO (R112). -/
theorem Pending.holds_writeFcr (c : Pending) (b : Byte) (u : Uart) :
    c.holds (writeFcr b u) ↔ c.holds u ∧ ¬(c = .dr ∧ (b[0] ≠ u.fcrFe ∨ b[0] = true ∧ b[1] = true)) := by
  cases hon : b[0]
  case false =>
    rw [writeFcr_of_disable hon]
    cases c
    case dr => cases hfe : u.fcrFe <;> simp [holds]
    all_goals simp [holds]
  case true =>
    rw [writeFcr_of_enable hon]
    cases c
    case dr => cases hfe : u.fcrFe <;> simp [holds, and_comm]
    all_goals simp [holds]

/-- An LSR read takes the error bits away (R122). -/
theorem Pending.holds_clearErrors (c : Pending) (u : Uart) :
    c.holds (clearErrors u) ↔ c.holds u ∧ ¬c.isError := by
  cases c <;> simp [holds, isError, clearErrors]

/-- An MSR read takes the delta bits away (R134). -/
theorem Pending.holds_clearDelta (c : Pending) (u : Uart) :
    c.holds { u with msrDelta := 0#4 } ↔ c.holds u ∧ ¬c = .delta := by
  cases c <;> simp [holds]

/-- An IER write takes the THRE latch away when it clears ETBEI, and raises it when it sets ETBEI (R105). -/
theorem Pending.holds_writeIer (c : Pending) (b : Byte) (u : Uart) :
    c.holds (writeIer b u) ↔
      (c.holds u ∧ ¬(c = .thre ∧ u.ier[1] = true ∧ b[1] = false)) ∨ (c = .thre ∧ u.ier[1] = false ∧ b[1] = true) := by
  rw [writeIer_eq]
  cases c
  case thre => cases hold : u.ier[1] <;> cases hnew : b[1] <;> simp [holds]
  all_goals simp [holds]

/-- A THR write raises the THRE latch (R101). -/
theorem Pending.holds_armThre (c : Pending) (u : Uart) :
    c.holds { u with threPending := true } ↔ c.holds u ∨ c = .thre := by
  cases c <;> simp [holds]

/-- A received byte raises DR, and OE when it finds the queue full (R140). -/
theorem Pending.holds_pushRx (c : Pending) (b : Byte) (u : Uart) :
    c.holds (pushRx b u) ↔ c.holds u ∨ c = .dr ∨ (c = .oe ∧ rxCap u ≤ u.rxq.length) := by
  have hcap : 1 ≤ rxCap u := by cases hfe : u.fcrFe <;> simp [rxCap, hfe, Config.rxFifoDepth]
  rcases pushRx_cases b u with ⟨hroom, e⟩ | ⟨hfull, -, e⟩ | ⟨hfull, -, e⟩ <;> rw [e]
  case inl => cases c <;> simp [holds, hroom]
  case inr.inl =>
    have hsome : u.rxq ≠ [] := List.length_pos_iff.mp (hcap.trans hfull)
    cases c <;> simp [holds, hfull, hsome]
  case inr.inr => cases c <;> simp [holds, hfull]

/-- Changes added to the delta nibble leave it 0 only when there are none (R130). -/
theorem delta_or_changes_ne_zero (d m n : Nibble) : d ||| (m ^^^ n) ≠ 0#4 ↔ d ≠ 0#4 ∨ m ≠ n := by
  rw [ne_eq, BitVec.or_eq_zero_iff, BitVec.xor_eq_zero_iff, not_and_or]

/-- A status change that counts its deltas raises the delta condition when an input changed (R130). -/
theorem Pending.holds_statusUpdate (c : Pending) (n : Nibble) (u : Uart) :
    c.holds (statusUpdate n true u) ↔ c.holds u ∨ (c = .delta ∧ u.msrStatus ≠ n) := by
  rw [statusUpdate_accumulates]
  cases c
  case delta => simpa [holds] using delta_or_changes_ne_zero u.msrDelta u.msrStatus n
  all_goals simp [holds]

/-- The loopback raises the delta condition when it is on and an input changed (R133). -/
theorem Pending.holds_loopback (c : Pending) (b : Byte) (u : Uart) :
    c.holds (loopback b u) ↔ c.holds u ∨ (c = .delta ∧ b[4] = true ∧ u.msrStatus ≠ loopNibble b) := by
  unfold loopback
  split
  case isTrue hloop => simpa [hloop, Config.loopbackDeltas] using c.holds_statusUpdate (loopNibble b) u
  case isFalse hloop => simp [hloop]

/-! ### Device events -/

/-- The condition a device event can raise on its port: a received byte DR and OE, a modem-status change the delta bits
(R153). -/
def Pending.raisedByEvent (c : Pending) : DeviceEvent → Prop
  | .rx _ _ => c = .oe ∨ c = .dr
  | .mstat _ _ => c = .delta

/-- No device event takes a condition away (R153). -/
theorem Pending.holds_eventEffect (c : Pending) (e : DeviceEvent) (u : Uart) (h : c.holds u) :
    c.holds (eventEffect e u) := by
  cases e with
  | rx p b => exact (c.holds_pushRx b u).mpr (.inl h)
  | mstat p st => exact (c.holds_statusUpdate (highNibble st) u).mpr (.inl h)

/-- A condition that a device event leaves was there before, or is one that the event can raise. -/
theorem Pending.of_holds_eventEffect {c : Pending} {e : DeviceEvent} {u : Uart} (h : c.holds (eventEffect e u)) :
    c.holds u ∨ c.raisedByEvent e := by
  cases e with
  | rx p b => exact ((c.holds_pushRx b u).mp h).imp_right fun hr => hr.symm.imp_left And.left
  | mstat p st => exact ((c.holds_statusUpdate (highNibble st) u).mp h).imp_right And.left

/-- A condition that a sequence of device events leaves on port p was there before, or one of the events that name port p can
raise it. -/
theorem Pending.of_holds_eventsAt {c : Pending} {p : PortId} {es : List DeviceEvent} {u : Uart}
    (h : c.holds (eventsAt p es u)) : c.holds u ∨ ∃ e ∈ es, eventPort e = p ∧ c.raisedByEvent e := by
  induction es generalizing u with
  | nil => exact .inl h
  | cons e es ih =>
    rcases ih (u := if eventPort e = p then eventEffect e u else u) h with hu | ⟨e', hmem, he'⟩
    · split at hu
      case isTrue hp => exact (of_holds_eventEffect hu).imp_right fun hr => ⟨e, List.mem_cons_self, hp, hr⟩
      case isFalse => exact .inl hu
    · exact .inr ⟨e', List.mem_cons_of_mem e hmem, he'⟩

/-- An emit to the bus takes no condition away, whatever the device does inside it (R60). -/
theorem Pending.holds_emitToBus {c : Pending} {s : State} {p : PortId} (h : c.holds (s.uart p)) (o : Output) :
    c.holds ((emitToBus o s).uart p) :=
  emitToBus_keep (fun u => c.holds u) c.holds_eventEffect o s p h

/-- A condition that an emit to the bus leaves on port p was there before, or an event of the next reaction that names port p
can raise it (R60). -/
theorem Pending.of_holds_emitToBus {c : Pending} {o : Output} {s : State} {p : PortId}
    (h : c.holds ((emitToBus o s).uart p)) :
    c.holds (s.uart p) ∨ ∃ es later, s.reactions = es :: later ∧ ∃ e ∈ es, eventPort e = p ∧ c.raisedByEvent e := by
  rw [emitToBus_uart] at h
  cases hr : s.reactions with
  | nil => rw [hr] at h; exact .inl h
  | cons es later => rw [hr] at h; exact (of_holds_eventsAt h).imp_right fun he => ⟨es, later, rfl, he⟩

/-! ## What takes a condition away -/

/-- The column "cleared by" of R153: `i` takes the condition away from port p, whose record is `u`. -/
def Pending.clearedBy (i : Instr) (p : PortId) (u : Uart) : Pending → Prop
  | .oe | .pe | .fe | .bi => i = .rdLsr p ∨ i = .evReset
  | .dr =>
    (i = .rdRbr p ∧ u.rxq.length = 1) ∨
      (∃ b, i = .wrFcr p b ∧ (b[0] ≠ u.fcrFe ∨ (b[0] = true ∧ b[1] = true))) ∨ i = .evReset
  | .thre =>
    (i = .rdIir p ∧ (iir u).extractLsb' 0 4 = 0x2#4) ∨
      (∃ b, i = .wrIer p b ∧ u.ier[1] = true ∧ b[1] = false) ∨ i = .evReset
  | .delta => i = .rdMsr p ∨ i = .evReset

/-- Reset is in the column for every condition. -/
theorem Pending.clearedBy_reset (c : Pending) (p : PortId) (u : Uart) : c.clearedBy .evReset p u := by
  cases c <;> simp [clearedBy]

/-- An LSR read is in the column for every error bit. -/
theorem Pending.clearedBy_rdLsr {c : Pending} (h : c.isError) (p : PortId) (u : Uart) : c.clearedBy (.rdLsr p) p u := by
  rcases h with rfl | rfl | rfl | rfl <;> exact .inl rfl

/-- What a change of port q's record keeps of a condition, it keeps on every port. -/
theorem Pending.holds_ite {c : Pending} {p q : PortId} {u v : Uart} (h : c.holds u) (hv : c.holds v) :
    c.holds (if p = q then v else u) := by
  split
  · exact hv
  · exact h

/-- A condition lost on port p by a change of port q's record is lost on that port, for the change's reason `B`. -/
theorem Pending.lost_at {c : Pending} {p q : PortId} {u v : Uart} {B : Prop} (hv : c.holds v ↔ c.holds u ∧ ¬B)
    (h : c.holds u) (hlost : ¬c.holds (if p = q then v else u)) : p = q ∧ B := by
  split at hlost
  case isTrue hpq => exact ⟨hpq, of_not_not fun hB => hlost (hv.mpr ⟨h, hB⟩)⟩
  case isFalse => exact absurd h hlost

/-- An operation that takes a condition away is in its column (R153). -/
theorem Pending.clearedBy_of_lost {c : Pending} {i : Instr} {s : State} {p : PortId} (h : c.holds (s.uart p))
    (hlost : ¬c.holds (uartAfter i s p)) : c.clearedBy i p (s.uart p) := by
  cases i
  case evReset => exact c.clearedBy_reset p _
  case rdRbr q =>
    obtain ⟨rfl, rfl, hlast⟩ := lost_at (c.holds_popRx _) h hlost
    exact .inl ⟨rfl, hlast⟩
  case wrFcr q b =>
    obtain ⟨rfl, rfl, hreset⟩ := lost_at (c.holds_writeFcr b _) h hlost
    exact .inr (.inl ⟨b, rfl, hreset⟩)
  case rdIir q =>
    obtain ⟨rfl, rfl, hthre⟩ := lost_at (c.holds_ackIir _ _) h hlost
    exact .inl ⟨rfl, hthre⟩
  case wrIer q b =>
    have hwrite := c.holds_writeIer b (s.uart p)
    by_cases hraise : c = .thre ∧ (s.uart p).ier[1] = false ∧ b[1] = true
    · exact absurd (holds_ite h (hwrite.mpr (.inr hraise))) hlost
    · obtain ⟨rfl, rfl, hetbei⟩ := lost_at (hwrite.trans (or_iff_left hraise)) h hlost
      exact .inr (.inl ⟨b, rfl, hetbei⟩)
  case rdLsr q =>
    obtain ⟨rfl, herr⟩ := lost_at (c.holds_clearErrors _) h hlost
    exact clearedBy_rdLsr herr p _
  case rdMsr q =>
    obtain ⟨rfl, rfl⟩ := lost_at (c.holds_clearDelta _) h hlost
    exact .inl rfl
  case wrThr q b =>
    have hnested := holds_emitToBus h (.tx q b)
    exact absurd (holds_ite hnested ((c.holds_armThre _).mpr (.inl hnested))) hlost
  case wrMcr q b =>
    have hstored : c.holds ((s.update q (fun u => { u with mcr := mcrBits b })).uart p) := by
      rw [State.update_uart_eq]
      exact holds_ite h ((holds_congr (by rfl) c).mpr h)
    have hnested := holds_emitToBus hstored (.ctrl q (lowNibble b))
    exact absurd (holds_ite hnested ((c.holds_loopback b _).mpr (.inl hnested))) hlost
  case evRx q b => exact absurd (holds_ite h ((c.holds_pushRx b _).mpr (.inl h))) hlost
  case evMstat q st => exact absurd (holds_ite h ((c.holds_statusUpdate _ _).mpr (.inl h))) hlost
  case wrDll | wrDlm | wrLcr | wrScr => exact absurd (holds_ite h ((holds_congr (by rfl) c).mpr h)) hlost
  case rdDll | rdIer | rdDlm | rdLcr | wrLsr | rdScr | rdMcr | wrMsr => exact absurd h hlost

/-- Settles O36: each clause is the column of one condition. -/
theorem pendingConditionsAreClearedOnlyByTheirRules : Obligations.PendingConditionsAreClearedOnlyByTheirRules := by
  intro i s t p h
  rw [exec_uart h]
  have hlost (c : Pending) (hs : c.holds (s.uart p)) (ht : ¬c.holds (uartAfter i s p)) : c.clearedBy i p (s.uart p) :=
    Pending.clearedBy_of_lost hs ht
  exact ⟨fun hs ht => hlost .oe hs (ne_true_of_eq_false ht), fun hs ht => hlost .pe hs (ne_true_of_eq_false ht),
    fun hs ht => hlost .fe hs (ne_true_of_eq_false ht), fun hs ht => hlost .bi hs (ne_true_of_eq_false ht),
    fun hs ht => hlost .dr hs (not_not_intro ht), fun hs ht => hlost .thre hs (ne_true_of_eq_false ht),
    fun hs ht => hlost .delta hs (not_not_intro ht)⟩

/-! ## What raises a condition -/

/-- The device delivers the event inside the emit of the THR or MCR write `i` (R60). -/
def NestedIn (i : Instr) (s : State) (e : DeviceEvent) : Prop :=
  (∃ q b, i = .wrThr q b ∨ i = .wrMcr q b) ∧ ∃ es later, s.reactions = es :: later ∧ e ∈ es

/-- The column "set by" of R153: `i` can raise the condition on port p, on its own or by an event nested in it. -/
def Pending.raisedBy (i : Instr) (s : State) (p : PortId) : Pending → Prop
  | .oe | .dr => ∃ b, i = .evRx p b ∨ NestedIn i s (.rx p b)
  | .thre => (∃ b, i = .wrThr p b) ∨ ∃ b, i = .wrIer p b ∧ b[1] = true
  | .delta => (∃ st, i = .evMstat p st ∨ NestedIn i s (.mstat p st)) ∨ ∃ b, i = .wrMcr p b ∧ b[4] = true
  | .pe | .fe | .bi => False

/-- The condition that an event raises, as its own operation or nested in a write, is in the column. -/
theorem Pending.raisedBy_of_event {c : Pending} {e : DeviceEvent} {i : Instr} {s : State} (hc : c.raisedByEvent e)
    (hi : i = e.instr ∨ NestedIn i s e) : c.raisedBy i s (eventPort e) := by
  cases e with
  | rx p b => rcases hc with rfl | rfl <;> exact ⟨b, hi⟩
  | mstat p st =>
    subst hc
    exact .inl ⟨st, hi⟩

/-- A condition that the emit of a THR or MCR write leaves was there before, or a nested event raised it. -/
theorem Pending.raisedBy_of_emitToBus {c : Pending} {i : Instr} {o : Output} {s m : State} {p : PortId}
    (hi : ∃ q b, i = .wrThr q b ∨ i = .wrMcr q b) (hm : m.reactions = s.reactions)
    (h : c.holds ((emitToBus o m).uart p)) : c.holds (m.uart p) ∨ c.raisedBy i s p := by
  refine (of_holds_emitToBus h).imp_right ?_
  rintro ⟨es, later, hr, e, hmem, rfl, hc⟩
  exact raisedBy_of_event hc (.inr ⟨hi, es, later, hm ▸ hr, hmem⟩)

/-- A condition on port p after a change of port q's record was there before, or the change raised it on that port, for the
reason `B`. -/
theorem Pending.raised_at {c : Pending} {p q : PortId} {u v : Uart} {B : Prop} (hv : c.holds v → c.holds u ∨ B)
    (h : c.holds (if p = q then v else u)) : c.holds u ∨ (p = q ∧ B) := by
  split at h
  case isTrue hpq => exact (hv h).imp_right fun hB => ⟨hpq, hB⟩
  case isFalse => exact .inl h

/-- A condition on port p after a device event of its own was there before, or the event raised it. -/
theorem Pending.raisedBy_of_ownEvent {c : Pending} {e : DeviceEvent} {s : State} {p : PortId}
    (h : c.holds (if p = eventPort e then eventEffect e (s.uart p) else s.uart p)) :
    c.holds (s.uart p) ∨ c.raisedBy e.instr s p := by
  refine (raised_at of_holds_eventEffect h).imp_right ?_
  rintro ⟨rfl, hc⟩
  exact raisedBy_of_event hc (.inl rfl)

/-- A condition after a change of port q's record that raises none was there before. -/
theorem Pending.of_holds_ite {c : Pending} {p q : PortId} {u v : Uart} (hv : c.holds v → c.holds u)
    (h : c.holds (if p = q then v else u)) : c.holds u := by
  split at h
  · exact hv h
  · exact h

/-- A condition after an operation was there before it, or the operation is in its column (R153). -/
theorem Pending.raisedBy_of_holds {c : Pending} {i : Instr} {s : State} {p : PortId}
    (h : c.holds (uartAfter i s p)) : c.holds (s.uart p) ∨ c.raisedBy i s p := by
  cases i
  case evReset => exact absurd h c.not_holds_reset
  case wrThr q b =>
    rcases raised_at (c.holds_armThre _).mp h with hnested | ⟨rfl, rfl⟩
    · exact raisedBy_of_emitToBus ⟨q, b, .inl rfl⟩ rfl hnested
    · exact .inr (.inl ⟨b, rfl⟩)
  case wrMcr q b =>
    rcases raised_at (c.holds_loopback b _).mp h with hnested | ⟨rfl, rfl, hloop, -⟩
    · refine (raisedBy_of_emitToBus ⟨q, b, .inr rfl⟩ (State.update_reactions s q _) hnested).imp_left fun hstored => ?_
      rw [State.update_uart_eq] at hstored
      exact of_holds_ite (holds_congr (by rfl) c).mp hstored
    · exact .inr (.inr ⟨b, rfl, hloop⟩)
  case wrIer q b =>
    have hwrite := fun hw => ((c.holds_writeIer b (s.uart p)).mp hw).imp_left And.left
    rcases raised_at hwrite h with hu | ⟨rfl, rfl, -, hetbei⟩
    · exact .inl hu
    · exact .inr (.inr ⟨b, rfl, hetbei⟩)
  case evRx q b => exact raisedBy_of_ownEvent (e := .rx q b) h
  case evMstat q st => exact raisedBy_of_ownEvent (e := .mstat q st) h
  case rdRbr => exact .inl (of_holds_ite (fun hv => ((c.holds_popRx _).mp hv).1) h)
  case wrFcr => exact .inl (of_holds_ite (fun hv => ((c.holds_writeFcr _ _).mp hv).1) h)
  case rdIir => exact .inl (of_holds_ite (fun hv => ((c.holds_ackIir _ _).mp hv).1) h)
  case rdLsr => exact .inl (of_holds_ite (fun hv => ((c.holds_clearErrors _).mp hv).1) h)
  case rdMsr => exact .inl (of_holds_ite (fun hv => ((c.holds_clearDelta _).mp hv).1) h)
  case wrDll | wrDlm | wrLcr | wrScr => exact .inl (of_holds_ite (holds_congr (by rfl) c).mp h)
  case rdDll | rdIer | rdDlm | rdLcr | wrLsr | rdScr | rdMcr | wrMsr => exact .inl h

/-- Settles O37: each clause is the column of one condition, and that of PE, FE and BI is empty. -/
theorem pendingConditionsAreSetOnlyByTheirRules : Obligations.PendingConditionsAreSetOnlyByTheirRules := by
  intro i s t p h nested
  rw [exec_uart h]
  have hraised (c : Pending) (hs : ¬c.holds (s.uart p)) (ht : c.holds (uartAfter i s p)) : c.raisedBy i s p :=
    (Pending.raisedBy_of_holds ht).resolve_left hs
  have hnever {a b : Bool} (hset : ¬a = true → ¬b = true) (ha : a = false) : b = false :=
    eq_false_of_ne_true (hset (ne_true_of_eq_false ha))
  exact ⟨fun hs ht => hraised .oe (ne_true_of_eq_false hs) ht, fun hs ht => hraised .dr (not_not_intro hs) ht,
    fun hs ht => hraised .thre (ne_true_of_eq_false hs) ht, fun hs ht => hraised .delta (not_not_intro hs) ht,
    hnever (hraised .pe), hnever (hraised .fe), hnever (hraised .bi)⟩

end Sys2Proof.Machine
end

section
/-! SUPPORT. The proofs of the statements of 70_reset_and_hazards.md: what reset leaves in each port's record and around
the records, and what each register then reads, after the views of a reset record. -/

namespace Sys2Proof.Machine

/-! ## The views of a reset record -/

/-- With every interrupt masked the encoder reports none, whatever is pending (R110, R151). -/
theorem iirId_of_masked {u : Uart} (h : u.ier = 0#4) : iirId u = 0x1#8 := by
  simp [iirId, rlsHolds, rdaHolds, threHolds, modemHolds, h]

/-- IIR after reset: every interrupt is masked, and the FIFO is off (R170). -/
theorem iir_reset : iir Uart.reset = 0x01#8 := by
  rw [iir, iirId_of_masked rfl]
  rfl

/-- LSR after reset: no data and no error, so only the two constant bits stand (R31, R170). -/
theorem lsr_reset : lsr Uart.reset = 0x60#8 := rfl

/-- MSR after reset: the OPEN status nibble, without deltas (R32, R170). -/
theorem msr_reset : msr Uart.reset = Config.resetMsrStatus ++ 0#4 := rfl

/-- No interrupt after reset (R154, R170). -/
theorem intOut_reset : intOut Uart.reset = false := by
  rw [intOut, iir_reset]
  rfl

/-! ## What reset leaves -/

/-- Both ports' records after reset (R170). -/
theorem exec_evReset_uart {s t : State} (h : exec .evReset s = .next t) (p : PortId) : t.uart p = Uart.reset :=
  exec_uart h p

/-- The OR of the two interrupt outputs after reset (R155, R170). -/
theorem exec_evReset_serialLevel {s t : State} (h : exec .evReset s = .next t) : serialLevel t = false := by
  have hint (p : PortId) : intOut (t.uart p) = false := exec_evReset_uart h p ▸ intOut_reset
  exact Bool.or_eq_false_iff.mpr ⟨hint .com1, hint .com2⟩

/-- The serial bit after reset (R155, R170). -/
theorem exec_evReset_fiqSerial {s t : State} (h : exec .evReset s = .next t) : t.fiqSerial = false :=
  (exec_fiqCurrent h).trans (exec_evReset_serialLevel h)

/-- Reset puts out the interrupt re-evaluation only: neither a TX nor a CTRL (R172). -/
theorem exec_evReset_outputs {s t : State} (h : exec .evReset s = .next t) :
    t.outputs = s.outputs ++ [.updateirqs Config.serialFiqBit false] := by
  rw [← exec_evReset_serialLevel h]
  injection h with h
  subst h
  simp

/-- Settles O30: each port is left the reset record, and the serial bit and the one output follow from its views. -/
theorem resetSetsEveryField : Obligations.ResetSetsEveryField := by
  refine ⟨fun p b => encodedBy_singleton (decodeOp_evReset p b), fun s => ?_⟩
  obtain ⟨t, h⟩ := exec_completes .evReset s
  have hviews (p : PortId) : iir (t.uart p) = 0x01#8 ∧ lsr (t.uart p) = 0x60#8 ∧
      msr (t.uart p) = Config.resetMsrStatus ++ 0#4 ∧ intOut (t.uart p) = false := by
    rw [exec_evReset_uart h p]
    exact ⟨iir_reset, lsr_reset, msr_reset, intOut_reset⟩
  exact ⟨t, h, exec_evReset_uart h, hviews, exec_evReset_fiqSerial h, exec_result h, exec_evReset_outputs h,
    exec_reactions_eq h, exec_surroundings h⟩

/-! ## The registers after reset -/

/-- Operations that return the values of a table complete with them. -/
theorem exec_returns_of_table {t : State} {rs : List (Instr × Byte)} (h : ∀ r ∈ rs, resultAfter r.1 t = some r.2) :
    ∀ r ∈ rs, ∃ a, exec r.1 t = .next a ∧ a.result = some r.2 := by
  intro r hr
  obtain ⟨a, ha⟩ := exec_completes r.1 t
  exact ⟨a, ha, (exec_result ha).trans (h r hr)⟩

/-- Settles O31: each read returns a field or a view of the reset record. -/
theorem registersAfterReset : Obligations.RegistersAfterReset := by
  intro s t p h
  have hport : t.uart p = Uart.reset := exec_evReset_uart h p
  refine ⟨exec_returns_of_table ?reads, ?fields⟩
  case reads =>
    simp only [List.forall_mem_cons, resultAfter, hport]
    exact ⟨rfl, rfl, rfl, rfl, congrArg some iir_reset, rfl, rfl, congrArg some lsr_reset, congrArg some msr_reset, rfl,
      List.forall_mem_nil _⟩
  case fields =>
    rw [hport]
    exact ⟨rfl, rfl, rfl, intOut_reset, exec_evReset_fiqSerial h⟩

/-- Settles O32: reset leaves each port the record that `State.reset` holds, and the serial bit 0. -/
theorem resetStateIsWhatResetLeaves : Obligations.ResetStateIsWhatResetLeaves := by
  intro s t h
  exact ⟨(exec_evReset_uart h .com1).symm, (exec_evReset_uart h .com2).symm, (exec_evReset_fiqSerial h).symm⟩

end Sys2Proof.Machine
end
